-- ==== Sys2Proof/Word.lean ====
section
/-! DEFINITION. The words of the machine: bytes, and the one 16-bit operand (00_scope.md R10, R11). -/

namespace Sys2Proof

/-- A byte: every operand, every stored text character, every byte of a frame (R10, R11). -/
abbrev Byte := BitVec 8

/-- The 16-bit scroll interval (30_encoding.md R87). -/
abbrev Word16 := BitVec 16

end Sys2Proof
end

