-- ==== Sys2Proof/Config.lean ====
section
/-! DEFINITION. What an implementation fixes: the sizes (00_scope.md R8), the font table and the text
capacity (R9, 10_state.md R31), and the values the spec leaves open, as opaque constants. -/

namespace Sys2Proof

/-- Framebuffer rows, row 0 at the top (R8). -/
abbrev HEIGHT : Nat := 14

/-- Framebuffer columns (R8). -/
abbrev WIDTH : Nat := 28

/-- Rows carried by one device frame (R8). -/
abbrev PANEL_ROWS : Nat := 7

/-- Frames per full-display update (R8). -/
abbrev NPANELS : Nat := 2

/-- Bytes in one device frame (R8). -/
abbrev FRAME_LEN : Nat := 32

/-- Bytes of the flat row-major pixel buffer (R8). -/
abbrev FLAT_LEN : Nat := 392

/-- A font descriptor is well formed (10_state.md R31, D34): widths 1 to 255, at least one row, the
glyph window inside the byte, 1 to 96 glyphs, and a table of exactly `glyphCount * fontWidth` bytes. -/
abbrev FontWf (fontWidth fontHeight startOffset glyphCount tableLen : Nat) : Prop :=
  (1 ≤ fontWidth ∧ fontWidth ≤ 255) ∧ (1 ≤ fontHeight ∧ startOffset + fontHeight ≤ 8) ∧
    (1 ≤ glyphCount ∧ glyphCount ≤ 96) ∧ tableLen = glyphCount * fontWidth

/-- A font of the Font Table (R9). A malformed descriptor is not a font (U22): the check comes with the
data. The defaults are one blank one-column glyph; they only show that the type is inhabited. -/
structure Font where
  /-- columns per glyph slot -/
  fontWidth : Nat := 1
  /-- rows per glyph -/
  fontHeight : Nat := 1
  /-- low bits of each column byte to skip -/
  startOffset : Nat := 0
  /-- entries in the glyph table -/
  glyphCount : Nat := 1
  /-- the glyph bitmaps, column-major, glyphs in index order (R97) -/
  table : List Byte := [0]
  /-- the descriptor is well formed -/
  wf : FontWf fontWidth fontHeight startOffset glyphCount table.length := by decide
deriving DecidableEq, Repr, Inhabited

/-- The open parameters of the block (R9): `NFONTS` fonts, 1 to 256, and `MAX_TEXT_LEN`, 0 to 255. -/
structure Config where
  /-- font 0: there is at least one font -/
  firstFont : Font := {}
  /-- fonts 1, 2, … -/
  otherFonts : List Font := []
  /-- `MAX_TEXT_LEN`: longest string operand, terminator excluded -/
  maxTextLen : Nat := 255
  /-- at most 256 fonts (D25) -/
  fontsFit : otherFonts.length ≤ 255 := by decide
  /-- at most 255 characters (D26) -/
  textFits : maxTextLen ≤ 255 := by decide
deriving DecidableEq, Repr, Inhabited

namespace Config

/-- The configuration the block has at reset: open in the spec (R9), so nothing is known of it.
DESIGN CHOICE, log 1. Safe. -/
opaque platform : Config

/-- The content of cell (`x`, `y`) of FB after a reset: `freeCell draw y x`, `draw` the number of the
reset (R34, U7). DESIGN CHOICE, log 2. -/
opaque freeCell : Nat → Nat → Nat → Bool

/-- Byte `i` of TXF0 (`k = 0`) or TXF1 (`k = 1`) after a reset: `freeFrameByte draw k i` (R34, U7).
DESIGN CHOICE, log 2. -/
opaque freeFrameByte : Nat → Nat → Nat → Byte

/-- Whether the tick agent comes next at a boundary the environment's list does not decide (R165, U13).
DESIGN CHOICE, log 7. Safe. -/
opaque freeTurn : Nat → Bool

/-- How many bytes the sink takes where the environment's list does not say (R201, U5).
DESIGN CHOICE, log 8. Safe. -/
opaque freeSinkCount : Nat → Nat

end Config

end Sys2Proof
end

