-- ==== Sys2Proof/Syntax.lean ====
section
/-! DEFINITION. The twelve operations (00_scope.md R7, 30_encoding.md R90) as abstract terms, one
constructor per row of spec/opcode_table.json. Operands are the bytes of the command (R81); what a
boolean, a bitmap or a flat buffer byte means is decided by the machine (Machine/Operands.lean). -/

namespace Sys2Proof

inductive Instr where
  /-- INIT, zero the framebuffer (R132) -/
  | init
  /-- CLEAR, cancel scrolling and zero the framebuffer (R133) -/
  | clear
  /-- SETPX x, y, v: write one cell (R134) -/
  | setpx (x y v : Byte)
  /-- MEAS f, ch: measure a glyph (R113) -/
  | meas (f ch : Byte)
  /-- DCHR f, ch, x, y: draw one glyph (R114) -/
  | dchr (f ch x y : Byte)
  /-- DSTR f, x, y, wrap, "str": draw a string (R135); the terminator is not part of `str` (R84) -/
  | dstr (f x y wrap : Byte) (str : List Byte)
  /-- DBMP w, h, x, y, inv, [data]: blit a bitmap of `w * h` bytes (R136, R85) -/
  | dbmp (w h x y inv : Byte) (data : List Byte)
  /-- SCRL f, x, y, ivl, cb, "str": start scrolling (R163) -/
  | scrl (f x y : Byte) (ivl : Word16) (cb : Byte) (str : List Byte)
  /-- TICK, one step of the scroll task (R164) -/
  | tick
  /-- ENC, encode the framebuffer (R183) -/
  | enc
  /-- ENCF [d]: encode a flat buffer of 392 bytes (R184, R86) -/
  | encf (d : List Byte)
  /-- SEND, transmit the frame pair (R202) -/
  | send
deriving DecidableEq, Repr

/-- The mnemonics of the operation set, in the order of their opcodes (R90). -/
inductive Mnemonic where
  | init | clear | setpx | meas | dchr | dstr | dbmp | scrl | tick | enc | encf | send
deriving DecidableEq, Repr

/-- The mnemonic of an operation. -/
def Instr.mnemonic : Instr → Mnemonic
  | .init => .init
  | .clear => .clear
  | .setpx _ _ _ => .setpx
  | .meas _ _ => .meas
  | .dchr _ _ _ _ => .dchr
  | .dstr _ _ _ _ _ => .dstr
  | .dbmp _ _ _ _ _ _ => .dbmp
  | .scrl _ _ _ _ _ _ => .scrl
  | .tick => .tick
  | .enc => .enc
  | .encf _ => .encf
  | .send => .send

end Sys2Proof
end

