-- ==== Sys2Proof/WellFormed.lean ====
section
/-! DEFINITION. When a term is an operation that some command spells: its strings hold no terminator
(R84), its bitmap has `w * h` bytes (R85), its flat buffer 392 (R86). Every byte value of every other
operand is legal (R91). -/

namespace Sys2Proof

/-- A string operand holds no 0x00 (R84). -/
def noNul (str : List Byte) : Bool := str.all (· != 0)

/-- The check, one arm per constructor. -/
def Instr.wf : Instr → Bool
  | .init => true
  | .clear => true
  | .setpx _ _ _ => true
  | .meas _ _ => true
  | .dchr _ _ _ _ => true
  | .dstr _ _ _ _ str => noNul str
  | .dbmp w h _ _ _ data => data.length == w.toNat * h.toNat
  | .scrl _ _ _ _ _ str => noNul str
  | .tick => true
  | .enc => true
  | .encf d => d.length == FLAT_LEN
  | .send => true

/-- The term is an operation some command spells. -/
abbrev Instr.WellFormed (i : Instr) : Prop := i.wf = true

end Sys2Proof
end

