-- ==== Sys2Proof/Machine/State.lean ====
section
/-! DEFINITION. The architectural state (10_state.md R20 to R34), plain data, and the state after reset. -/

namespace Sys2Proof.Machine

open Sys2Proof

/-- The framebuffer's shape: 14 rows of 28 one-bit cells, row first (R23, 00_scope.md R12). -/
abbrev Grid := Vector (Vector Bool WIDTH) HEIGHT

/-- A device frame (30_encoding.md R95). -/
abbrev Frame := Vector Byte FRAME_LEN

/-- The scroll session record (R28). -/
structure Session where
  /-- STEXT, the session's own copy of the text -/
  stext : List Byte
  /-- SIDX, the current read index -/
  sidx : Nat
  /-- SFONT, the font number -/
  sfont : Byte
  /-- SX, draw origin -/
  sx : Byte
  /-- SY, draw origin -/
  sy : Byte
  /-- SIVL, the interval in milliseconds; no rule reads it (42_scroll.md R166) -/
  sivl : Word16
  /-- SCB, the tag echoed in every UPDATE event -/
  scb : Byte
deriving DecidableEq, Repr

/-- SLEN, the length of STEXT: the terminator's position (R28, log 3). -/
def Session.slen (ses : Session) : Nat := ses.stext.length

/-- An UPDATE event: the tag and a copy of the surface (60_exceptions.md R216). -/
structure Update where
  tag : Byte
  grid : Grid
deriving DecidableEq, Repr

/-- The reset input (70_reset_and_hazards.md R250): reset may come at any time, between operations or
inside one (log 9). -/
inductive ResetInput where
  /-- not asserted -/
  | released
  /-- asserted at the next operation boundary, before an operation starts -/
  | atBoundary
  /-- asserted inside the operation that starts next, which is abandoned -/
  | inOperation
deriving DecidableEq, Repr

/-- The state of the block. Everything from `fb` to `evLog` is R20's; `cfg` is the configuration (R31),
which no step writes (log 1); the fields after `evLog` are the model's own: the block's ports and the
environment's choices (logs 6 to 9). -/
structure State where
  /-- the configuration: fonts and text capacity (00_scope.md R9) -/
  cfg : Config
  /-- FB, the framebuffer (R23) -/
  fb : Grid
  /-- TXF0, the top frame (R25) -/
  txf0 : Frame
  /-- TXF1, the bottom frame (R25) -/
  txf1 : Frame
  /-- FR_VALID (R26) -/
  frValid : Bool
  /-- the scroll session; SCROLL_ACTIVE is its presence (R27, R28, log 3) -/
  session : Option Session
  /-- FAULTED (R29) -/
  faulted : Bool
  /-- TXLOG, the bytes the sink has accepted (R30) -/
  txLog : List Byte
  /-- EVLOG, the UPDATE events emitted (R30) -/
  evLog : List Update
  /-- the command port: bytes not yet consumed, first one first (30_encoding.md R80) -/
  rx : List Byte
  /-- the response port: bytes written, first one first (30_encoding.md R80, R83) -/
  respLog : List Byte
  /-- the counts the sink will answer next (44_transport.md R201) -/
  sinkAnswers : List Nat
  /-- whose turn the next boundaries are while a session is active: true is the tick agent's (42_scroll.md R165) -/
  turns : List Bool
  /-- how many opaque free values have been drawn -/
  drawn : Nat
  /-- the reset input (70_reset_and_hazards.md R250) -/
  resetInput : ResetInput
deriving DecidableEq, Repr

/-- SCROLL_ACTIVE (R27). -/
def State.scrollActive (s : State) : Bool := s.session.isSome

/-- Why a step stops the machine. -/
inductive Fault where
  /-- NO_PROGRESS, the block's only fault: raised by `step` in every state with FAULTED = 1, where no
  agent has a step until reset (R29, 60_exceptions.md R214). Safe: the machine stops where the spec's stops. -/
  | noProgress
deriving DecidableEq, Repr

/-- Why the model gives an instruction no meaning. -/
inductive Refusal where
  /-- An instruction without a meaning yet: raised by `exec`'s arm for it. Safe: the run ends there.
  No arm raises it now. -/
  | notModelled (mnemonic : String)
deriving DecidableEq, Repr

/-- The surface after reset number `draw`: 392 free bits (R34, log 2). -/
def freeGrid (draw : Nat) : Grid :=
  Vector.ofFn fun y => Vector.ofFn fun x => Config.freeCell draw y.val x.val

/-- Frame register `k` after reset number `draw`: 32 free bytes (R34, log 2). -/
def freeFrame (draw k : Nat) : Frame := Vector.ofFn fun i => Config.freeFrameByte draw k i.val

/-- The state reset number `draw` leaves in a block of configuration `cfg` (R34). -/
def State.powerOn (cfg : Config) (draw : Nat) : State where
  cfg := cfg
  fb := freeGrid draw
  txf0 := freeFrame draw 0
  txf1 := freeFrame draw 1
  frValid := false
  session := none
  faulted := false
  txLog := []
  evLog := []
  rx := []
  respLog := []
  sinkAnswers := []
  turns := []
  drawn := draw + 1
  resetInput := .released

/-- The machine right after reset (R34): the configuration is open (log 1), FB and the frame registers
are free values (log 2), every flag is 0, there is no session, the logs are empty. -/
def State.reset : State := State.powerOn Config.platform 0

end Sys2Proof.Machine
end

