-- ==== Sys2Proof/Machine/Params.lean ====
section
/-! DEFINITION. The literal values of 00_scope.md R8, each named once (D32). -/

namespace Sys2Proof.Machine

open Sys2Proof

/-- Frame byte 0, first start marker (R8, R95). -/
def SOF0 : Byte := 0x80

/-- Frame byte 1, second start marker (R8, R95). -/
def SOF1 : Byte := 0x83

/-- Frame byte 2 of the top frame, rows 0 to 6 (R8, R95). -/
def ADDR_TOP : Byte := 0x15

/-- Frame byte 2 of the bottom frame, rows 7 to 13 (R8, R95). -/
def ADDR_BOT : Byte := 0x17

/-- Frame byte 31, end marker (R8, R95). -/
def EOF_MARK : Byte := 0x8F

/-- Mask applied to a character code before lookup (R8, R57). -/
def CHAR_MASK : Byte := 0x7F

/-- Code of glyph-table entry 0, the space character (R8, R57). -/
def CHAR_BASE : Nat := 0x20

/-- Blank columns between glyphs in a string (R8, R135). -/
def GLYPH_GAP : Nat := 1

/-- Blank rows added to `font_height` on a wrap (R8, R135). -/
def LINE_GAP : Nat := 1

/-- Visible width of an all-zero glyph (R8, R111). -/
def BLANK_VW : Nat := 1

end Sys2Proof.Machine
end

