-- ==== Sys2Proof/Machine/Flags.lean ====
section
/-! DEFINITION. The statuses of a response (60_exceptions.md R210). The block has no condition codes; its
flags are FR_VALID, SCROLL_ACTIVE and FAULTED, each a field or a view of State (10_state.md R26, R27, R29). -/

namespace Sys2Proof.Machine

open Sys2Proof

/-- The ten statuses (R210, U15). -/
inductive Status where
  /-- the operation did its work -/
  | ok
  /-- a glyph does not fit horizontally, or a SETPX coordinate is outside the surface -/
  | outOfBounds
  /-- a scroll session exists -/
  | alreadyRunning
  /-- the sink accepted fewer than 32 bytes of a frame -/
  | ioError
  /-- font number out of range -/
  | badFont
  /-- reserved opcode -/
  | badOpcode
  /-- SEND before any ENC or ENCF since reset -/
  | noFrame
  /-- the fault: a wrapping DSTR met a character that does not fit at the start column -/
  | noProgress
  /-- string longer than MAX_TEXT_LEN -/
  | badOperand
  /-- TICK command with no session -/
  | notRunning
deriving DecidableEq, Repr

/-- The status byte (R210). -/
def statusCode : Status → Byte
  | .ok => 0x00
  | .outOfBounds => 0x01
  | .alreadyRunning => 0x02
  | .ioError => 0x03
  | .badFont => 0x04
  | .badOpcode => 0x05
  | .noFrame => 0x06
  | .noProgress => 0x07
  | .badOperand => 0x08
  | .notRunning => 0x09

/-- A result byte of a response: every result fits a byte (30_encoding.md R83). -/
def resultByte (n : Nat) : Byte := BitVec.ofNat 8 n

end Sys2Proof.Machine
end

