-- ==== Sys2Proof/Machine/Ops.lean ====
section
/-! DEFINITION. The named operations over the block's spaces and ports: cells (20_memory.md R54, R55),
responses (30_encoding.md R83), the sink (44_transport.md R201), the UPDATE event (60_exceptions.md R216),
the one fault (R214) and the reset event (70_reset_and_hazards.md R250). -/

namespace Sys2Proof.Machine

open Sys2Proof

/-- `FB[y][x]`; false outside the surface, where no operation reads (R55). -/
def cell (g : Grid) (x y : Nat) : Bool :=
  if h : x < WIDTH ∧ y < HEIGHT then (g[y]'h.2)[x]'h.1 else false

/-- `FbWrite(x, y, v)`, the one bounds-checked cell write: nothing happens outside the surface (R54). -/
def fbWrite (g : Grid) (x y : Nat) (v : Bool) : Grid :=
  if h : x < WIDTH ∧ y < HEIGHT then g.set y ((g[y]'h.2).set x v h.1) h.2 else g

/-- The all-zero surface, what `FbZero()` leaves (00_scope.md R13). -/
def fbZero : Grid := Vector.replicate HEIGHT (Vector.replicate WIDTH false)

/-- The grid whose cell in row `y`, column `x` is `b x y` (43_frame_encoder.md R184). -/
def gridOf (b : Nat → Nat → Bool) : Grid :=
  Vector.ofFn fun y => Vector.ofFn fun x => b x.val y.val

/-- `respond(status, results)`: the status byte, then the result bytes (R83). -/
def respond (s : State) (status : Status) (results : List Byte) : State :=
  { s with respLog := s.respLog ++ statusCode status :: results }

/-- The count the sink answers to an offer of `n` bytes: the environment's, never more than `n` (R201,
log 8). -/
def sinkCount (s : State) (n : Nat) : Nat :=
  match s.sinkAnswers with
  | k :: _ => min k n
  | [] => min (Config.freeSinkCount s.drawn) n

/-- The state once the sink has answered: its answer is used up (log 8). -/
def sinkAnswered (s : State) : State :=
  match s.sinkAnswers with
  | _ :: ks => { s with sinkAnswers := ks }
  | [] => { s with drawn := s.drawn + 1 }

/-- `SinkWrite(bytes)`: the accepted bytes join TXLOG in order (R201). `sinkCount s bytes.length` is the
count it returns. -/
def sinkWrite (s : State) (bytes : List Byte) : State :=
  { sinkAnswered s with txLog := s.txLog ++ bytes.take (sinkCount s bytes.length) }

/-- `emit UPDATE(tag, copy of FB)` (R216). -/
def emitUpdate (s : State) (tag : Byte) : State :=
  { s with evLog := s.evLog ++ [{ tag := tag, grid := s.fb }] }

/-- `fault(NO_PROGRESS)`, the block's one exception: the response `[07, count]` is written once and
FAULTED is set; nothing is saved and there is no way back but reset (R214, R219). -/
def takeFault (s : State) (count : Nat) : State :=
  respond { s with faulted := true } .noProgress [resultByte count]

/-- The reset event (R250): the state of 10_state.md R34 with the configuration kept. What the
environment holds (unread command bytes, its coming answers) is kept and the input is released (log 9). -/
def resetEvent (s : State) : State :=
  { State.powerOn s.cfg s.drawn with
    rx := s.rx, sinkAnswers := s.sinkAnswers, turns := s.turns }

end Sys2Proof.Machine
end

