-- ==== Sys2Proof/Machine/Operands.lean ====
section
/-! DEFINITION. What operand bytes mean: booleans (30_encoding.md R89), font numbers
(40_glyph_rasterizer.md R110), strings (R84), bitmaps (R85) and the flat buffer (20_memory.md R59). -/

namespace Sys2Proof.Machine

open Sys2Proof

/-- A boolean operand or a pixel byte: true when non-zero (R89, R59, R85). -/
def lit (b : Byte) : Bool := b != 0

/-- NFONTS (00_scope.md R9). -/
def nfonts (cfg : Config) : Nat := cfg.otherFonts.length + 1

/-- The check `f >= NFONTS` of R110. -/
def badFont (cfg : Config) (f : Byte) : Bool := decide (nfonts cfg ≤ f.toNat)

/-- Font number `f`; used only where `f < NFONTS` has been checked (R110, log 10). -/
def fontAt (cfg : Config) (f : Byte) : Font :=
  (cfg.firstFont :: cfg.otherFonts).getD f.toNat cfg.firstFont

/-- The check `n > MAX_TEXT_LEN` of R84. -/
def textTooLong (cfg : Config) (str : List Byte) : Bool := decide (cfg.maxTextLen < str.length)

/-- `B(i, j)` of a bitmap `w` columns wide: byte `j * w + i` is non-zero (R85, R136). -/
def bitmapBit (w : Nat) (data : List Byte) (i j : Nat) : Bool := lit (data.getD (j * w + i) 0)

/-- The grid a flat buffer means: byte `y * 28 + x` is the cell in row `y`, column `x` (R59, R184). -/
def flatGrid (d : List Byte) : Grid := gridOf fun x y => lit (d.getD (y * WIDTH + x) 0)

end Sys2Proof.Machine
end

