-- ==== Sys2Proof/Machine/Glyph.lean ====
section
/-! DEFINITION. The glyph rasterizer, unit U1 (40_glyph_rasterizer.md): the font ROM's read, Measure,
DrawGlyph, and the meanings of MEAS and DCHR. -/

namespace Sys2Proof.Machine

open Sys2Proof

/-- A code's distance from the space character, bit 7 ignored, 0 below it: 0 to 95 (20_memory.md R57). -/
def maskedIndex (code : Byte) : Nat :=
  if (code &&& CHAR_MASK).toNat < CHAR_BASE then 0 else (code &&& CHAR_MASK).toNat - CHAR_BASE

/-- `GlyphIndex(f, code)`: bit 7 ignored, codes below space and codes beyond the table select entry 0
(20_memory.md R57). -/
def glyphIndex (font : Font) (code : Byte) : Nat :=
  if font.glyphCount ≤ maskedIndex code then 0 else maskedIndex code

/-- `FontCol(f, idx, c)`, the only read of the font ROM (20_memory.md R56). -/
def fontCol (font : Font) (idx c : Nat) : Byte := font.table.getD (idx * font.fontWidth + c) 0

/-- Column byte `c` of the glyph a code selects. -/
def glyphCol (font : Font) (code : Byte) (c : Nat) : Byte := fontCol font (glyphIndex font code) c

/-- What `Measure` returns. -/
structure Extent where
  leftTrim : Nat
  rightTrim : Nat
  visibleWidth : Nat
deriving DecidableEq, Repr

/-- The indices of the non-zero columns of a glyph, rising: the whole byte is tested (R111 point a). -/
def inkColumns (font : Font) (code : Byte) : List Nat :=
  (List.range font.fontWidth).filter fun c => glyphCol font code c != 0

/-- `Measure(f, code)` (R111). -/
def measureGlyph (font : Font) (code : Byte) : Extent :=
  match (inkColumns font code).head?, (inkColumns font code).getLast? with
  | some first, some last =>
    { leftTrim := first, rightTrim := font.fontWidth - 1 - last, visibleWidth := last - first + 1 }
  | _, _ => { leftTrim := 0, rightTrim := font.fontWidth - 1, visibleWidth := BLANK_VW }

/-- Column `k` of the trimmed glyph, written at column `x + k`: glyph row `r` is bit
`start_offset + r`; lit bits are written as 1, unlit bits not at all (R112). -/
def drawColumn (font : Font) (b : Byte) (px y : Nat) (g : Grid) : Grid :=
  (List.range font.fontHeight).foldl
    (fun g r => if b.getLsbD (font.startOffset + r) then fbWrite g px (y + r) true else g) g

/-- The cells `DrawGlyph` writes once the fit test has passed (R112). -/
def drawColumns (font : Font) (code : Byte) (x y : Nat) (g : Grid) : Grid :=
  (List.range (measureGlyph font code).visibleWidth).foldl
    (fun g k => drawColumn font (glyphCol font code ((measureGlyph font code).leftTrim + k)) (x + k) y g) g

/-- The horizontal fit test fails: `x + vw > 28` (R112). -/
def misfit (font : Font) (code : Byte) (x : Nat) : Bool :=
  decide (WIDTH < x + (measureGlyph font code).visibleWidth)

/-- `DrawGlyph(f, code, x, y)`: none is OOB, with the surface untouched; else the width and the new
surface (R112). -/
def drawGlyph (font : Font) (code : Byte) (x y : Nat) (g : Grid) : Option (Nat × Grid) :=
  if misfit font code x then none
  else some ((measureGlyph font code).visibleWidth, drawColumns font code x y g)

/-- MEAS's result bytes: left trim, right trim, visible width (30_encoding.md R83). -/
def extentBytes (e : Extent) : List Byte :=
  [resultByte e.leftTrim, resultByte e.rightTrim, resultByte e.visibleWidth]

/-- MEAS (R113). -/
def execMeas (f ch : Byte) (s : State) : Host.Outcome State Fault Refusal :=
  .next <|
    if badFont s.cfg f then respond s .badFont []
    else respond s .ok (extentBytes (measureGlyph (fontAt s.cfg f) ch))

/-- DCHR (R114). -/
def execDchr (f ch x y : Byte) (s : State) : Host.Outcome State Fault Refusal :=
  .next <|
    if badFont s.cfg f then respond s .badFont []
    else
      match drawGlyph (fontAt s.cfg f) ch x.toNat y.toNat s.fb with
      | none => respond s .outOfBounds []
      | some r => respond { s with fb := r.2 } .ok [resultByte r.1]

end Sys2Proof.Machine
end

