-- ==== Sys2Proof/Machine/Framebuffer.lean ====
section
/-! DEFINITION. The framebuffer operations, unit U2 (41_framebuffer.md): INIT, CLEAR, SETPX, DSTR, DBMP. -/

namespace Sys2Proof.Machine

open Sys2Proof

/-- INIT: every cell becomes 0, nothing else changes (R132). -/
def execInit (s : State) : Host.Outcome State Fault Refusal :=
  .next (respond { s with fb := fbZero } .ok [])

/-- CLEAR: the session is cancelled and its fields discarded, then every cell becomes 0 (R133). -/
def execClear (s : State) : Host.Outcome State Fault Refusal :=
  .next (respond { s with session := none, fb := fbZero } .ok [])

/-- SETPX: a coordinate outside the surface is reported and writes nothing (R134). -/
def execSetpx (x y v : Byte) (s : State) : Host.Outcome State Fault Refusal :=
  .next <|
    if WIDTH ≤ x.toNat ∨ HEIGHT ≤ y.toNat then respond s .outOfBounds []
    else respond { s with fb := fbWrite s.fb x.toNat y.toNat (lit v) } .ok []

/-- What drawing a string leaves: the surface, the number of characters drawn, and whether it stopped
in the fault. -/
structure StringDrawn where
  grid : Grid
  count : Nat
  noProgress : Bool
deriving DecidableEq, Repr

/-- R135's loop, from character number `i` at cursor (`cx`, `cy`); `x` is the start column. A misfit
without wrap stops silently; with wrap it is the fault at the start column, else the same character is
retried once at the start of the next line, where a misfit is the fault. -/
def drawString (font : Font) (wrap : Bool) (x : Nat) :
    List Byte → Nat → Nat → Nat → Grid → StringDrawn
  | [], _, _, i, g => { grid := g, count := i, noProgress := false }
  | c :: cs, cx, cy, i, g =>
    match drawGlyph font c cx cy g with
    | some r => drawString font wrap x cs (cx + r.1 + GLYPH_GAP) cy (i + 1) r.2
    | none =>
      if wrap = false then { grid := g, count := i, noProgress := false }
      else if cx = x then { grid := g, count := i, noProgress := true }
      else
        match drawGlyph font c x (cy + font.fontHeight + LINE_GAP) g with
        | some r =>
          drawString font wrap x cs (x + r.1 + GLYPH_GAP) (cy + font.fontHeight + LINE_GAP) (i + 1) r.2
        | none => { grid := g, count := i, noProgress := true }

/-- How DSTR ends: the fault with the glyphs already drawn in place, or OK with the count (R135). -/
def finishString (s : State) (d : StringDrawn) : State :=
  if d.noProgress then takeFault { s with fb := d.grid } d.count
  else respond { s with fb := d.grid } .ok [resultByte d.count]

/-- DSTR (R135): string length, then font number, then the draw (60_exceptions.md R218). -/
def execDstr (f x y wrap : Byte) (str : List Byte) (s : State) : Host.Outcome State Fault Refusal :=
  .next <|
    if textTooLong s.cfg str then respond s .badOperand []
    else if badFont s.cfg f then respond s .badFont []
    else finishString s
      (drawString (fontAt s.cfg f) (lit wrap) x.toNat str x.toNat y.toNat 0 s.fb)

/-- R136's loop: rows of the bitmap, then columns; every covered in-range cell is overwritten with
`B(i, j) ^ inv`, out-of-range cells are clipped. -/
def blit (w h x y : Nat) (inv : Bool) (data : List Byte) (g : Grid) : Grid :=
  (List.range h).foldl
    (fun g j =>
      (List.range w).foldl
        (fun g i => fbWrite g (x + i) (y + j) (bitmapBit w data i j != inv)) g) g

/-- DBMP (R136). -/
def execDbmp (w h x y inv : Byte) (data : List Byte) (s : State) : Host.Outcome State Fault Refusal :=
  .next (respond
    { s with fb := blit w.toNat h.toNat x.toNat y.toNat (lit inv) data s.fb } .ok [])

end Sys2Proof.Machine
end

