-- ==== Sys2Proof/Machine/Scroll.lean ====
section
/-! DEFINITION. The scroll sequencer, unit U4 (42_scroll.md): SCRL, TICK, and the tick transition that
TICK and the tick agent share. -/

namespace Sys2Proof.Machine

open Sys2Proof

/-- The session SCRL creates: its own copy of the text, the read index at 0 (R163). -/
def newSession (f x y : Byte) (ivl : Word16) (cb : Byte) (str : List Byte) : Session :=
  { stext := str, sidx := 0, sfont := f, sx := x, sy := y, sivl := ivl, scb := cb }

/-- SCRL: string length, font number, session state, in this order; then the session is created
(R163). FB is not touched. -/
def execScrl (f x y : Byte) (ivl : Word16) (cb : Byte) (str : List Byte) (s : State) :
    Host.Outcome State Fault Refusal :=
  .next <|
    if textTooLong s.cfg str then respond s .badOperand []
    else if badFont s.cfg f then respond s .badFont []
    else
      match s.session with
      | some _ => respond s .alreadyRunning []
      | none => respond { s with session := some (newSession f x y ivl cb str) } .ok []

/-- The circular advance of SIDX: positions 0 to SLEN, then 0 again (R164 point b). -/
def advanceIndex (ses : Session) : Nat :=
  if ses.slen < ses.sidx + 1 then 0 else ses.sidx + 1

/-- The session with its read index advanced; nothing else of it changes (R164). -/
def advanceSession (ses : Session) : Session := { ses with sidx := advanceIndex ses }

/-- The picture of a session at its read index: the suffix drawn without wrap on a zeroed surface
(R164 points c, d). -/
def scrollPicture (cfg : Config) (ses : Session) : Grid :=
  (drawString (fontAt cfg ses.sfont) false ses.sx.toNat (ses.stext.drop ses.sidx) ses.sx.toNat
    ses.sy.toNat 0 fbZero).grid

/-- The surface and the session after a redraw, and the UPDATE event (R164 point e). -/
def showSession (s : State) (ses : Session) : State :=
  emitUpdate { s with session := some ses, fb := scrollPicture s.cfg ses } ses.scb

/-- The tick transition of a session: advance, zero, redraw, emit UPDATE (R164). -/
def tickSession (s : State) (ses : Session) : State := showSession s (advanceSession ses)

/-- The tick agent's firing: R164's transition without a response (R165). It has no step while no
session is active. -/
def tickAgent (s : State) : State :=
  match s.session with
  | none => s
  | some ses => tickSession s ses

/-- TICK (R164): NOT_RUNNING when idle, else the transition and OK. -/
def execTick (s : State) : Host.Outcome State Fault Refusal :=
  .next <|
    match s.session with
    | none => respond s .notRunning []
    | some ses => respond (tickSession s ses) .ok []

end Sys2Proof.Machine
end

