-- ==== Sys2Proof/Machine/Encoder.lean ====
section
/-! DEFINITION. The device frame encoder, unit U3 (43_frame_encoder.md): Encode, ENC and ENCF. -/

namespace Sys2Proof.Machine

open Sys2Proof

/-- The 28 column bytes of one half panel, `display1` or `display2` (R181). -/
abbrev Display := Vector Byte WIDTH

/-- A display buffer with bit `b` of column `x` set. -/
def setBit (d : Display) (x b : Nat) : Display :=
  if h : x < WIDTH then d.set x (d[x] ||| (1#8 <<< b)) h else d

/-- One lit cell of the walk: a row of the first panel goes to `display1`, a row of the second to
`display2`, at bit `y mod PANEL_ROWS` (R181). -/
def lightCell (d : Display × Display) (x y : Nat) : Display × Display :=
  if y < PANEL_ROWS then (setBit d.1 x (y % PANEL_ROWS), d.2) else (d.1, setBit d.2 x (y % PANEL_ROWS))

/-- The row-major walk over the grid, from zeroed display buffers (R181). -/
def displays (g : Grid) : Display × Display :=
  (List.range HEIGHT).foldl
    (fun d y => (List.range WIDTH).foldl (fun d x => if cell g x y then lightCell d x y else d) d)
    (Vector.replicate WIDTH 0, Vector.replicate WIDTH 0)

/-- A device frame: markers, address, 28 column bytes, end marker (30_encoding.md R95). -/
def deviceFrame (addr : Byte) (d : Display) : Frame :=
  ⟨([SOF0, SOF1, addr] ++ d.toList ++ [EOF_MARK]).toArray, by simp⟩

/-- The top frame of a grid (R181). -/
def encodeTop (g : Grid) : Frame := deviceFrame ADDR_TOP (displays g).1

/-- The bottom frame of a grid (R181). -/
def encodeBottom (g : Grid) : Frame := deviceFrame ADDR_BOT (displays g).2

/-- The frame register write: both frames and FR_VALID as one (R182). -/
def storeFrames (s : State) (g : Grid) : State :=
  { s with txf0 := encodeTop g, txf1 := encodeBottom g, frValid := true }

/-- `respond(OK, TXF0[0..31], TXF1[0..31])` (R183, R184). -/
def respondFrames (s : State) : State := respond s .ok (s.txf0.toList ++ s.txf1.toList)

/-- ENC (R183). -/
def execEnc (s : State) : Host.Outcome State Fault Refusal :=
  .next (respondFrames (storeFrames s s.fb))

/-- ENCF: FB is neither read nor written (R184). -/
def execEncf (d : List Byte) (s : State) : Host.Outcome State Fault Refusal :=
  .next (respondFrames (storeFrames s (flatGrid d)))

end Sys2Proof.Machine
end

