-- ==== Sys2Proof/Machine/Transport.lean ====
section
/-! DEFINITION. The transport port (44_transport.md): SEND. -/

namespace Sys2Proof.Machine

open Sys2Proof

/-- The bottom frame's write: a short one is IO_ERROR with index 1 (R202). -/
def sendBottom (s : State) : State :=
  if sinkCount s FRAME_LEN ≠ FRAME_LEN then respond (sinkWrite s s.txf1.toList) .ioError [1]
  else respond (sinkWrite s s.txf1.toList) .ok []

/-- SEND's two writes, top half first; a short top frame is IO_ERROR with index 0 and the bottom frame
is not offered (R202). -/
def sendFrames (s : State) : State :=
  if sinkCount s FRAME_LEN ≠ FRAME_LEN then respond (sinkWrite s s.txf0.toList) .ioError [0]
  else sendBottom (sinkWrite s s.txf0.toList)

/-- SEND (R202). -/
def execSend (s : State) : Host.Outcome State Fault Refusal :=
  .next (if s.frValid then sendFrames s else respond s .noFrame [])

end Sys2Proof.Machine
end

