-- ==== Sys2Proof/Machine/Dispatch.lean ====
section
/-! DEFINITION. One arm per operation of 30_encoding.md R90. -/

namespace Sys2Proof.Machine

open Sys2Proof

def exec (i : Instr) (s : State) : Host.Outcome State Fault Refusal :=
  match i with
  | .init => Sys2Proof.Machine.execInit s
  | .clear => Sys2Proof.Machine.execClear s
  | .setpx x y v => Sys2Proof.Machine.execSetpx x y v s
  | .meas f ch => Sys2Proof.Machine.execMeas f ch s
  | .dchr f ch x y => Sys2Proof.Machine.execDchr f ch x y s
  | .dstr f x y wrap str => Sys2Proof.Machine.execDstr f x y wrap str s
  | .dbmp w h x y inv data => Sys2Proof.Machine.execDbmp w h x y inv data s
  | .scrl f x y ivl cb str => Sys2Proof.Machine.execScrl f x y ivl cb str s
  | .tick => Sys2Proof.Machine.execTick s
  | .enc => Sys2Proof.Machine.execEnc s
  | .encf d => Sys2Proof.Machine.execEncf d s
  | .send => Sys2Proof.Machine.execSend s

end Sys2Proof.Machine
end

