-- ==== Sys2Proof/Decode.lean ====
section
/-! DEFINITION. The command stream (30_encoding.md R80 to R93): a total decoder on any bytes, which
rejects reserved opcodes and incomplete commands by name, and the encoder. -/

namespace Sys2Proof

/-- What the first bytes of the command stream spell (R91): a command and the bytes after it, a
reserved opcode and the bytes after it, or no whole command yet (R93). -/
inductive Decoded where
  | command (i : Instr) (rest : List Byte)
  | reserved (op : Byte) (rest : List Byte)
  | incomplete
deriving DecidableEq, Repr

/-- The operation an opcode selects; none for the reserved opcodes 0x00 and 0x0D to 0xFF (R90, R91). -/
def mnemonicOf (op : Byte) : Option Mnemonic :=
  match op.toNat with
  | 0x01 => some .init
  | 0x02 => some .clear
  | 0x03 => some .setpx
  | 0x04 => some .meas
  | 0x05 => some .dchr
  | 0x06 => some .dstr
  | 0x07 => some .dbmp
  | 0x08 => some .scrl
  | 0x09 => some .tick
  | 0x0A => some .enc
  | 0x0B => some .encf
  | 0x0C => some .send
  | _ => none

/-- The opcode of an operation (R90). -/
def opcodeOf : Mnemonic → Byte
  | .init => 0x01
  | .clear => 0x02
  | .setpx => 0x03
  | .meas => 0x04
  | .dchr => 0x05
  | .dstr => 0x06
  | .dbmp => 0x07
  | .scrl => 0x08
  | .tick => 0x09
  | .enc => 0x0A
  | .encf => 0x0B
  | .send => 0x0C

/-- The string operand: the bytes before the first 0x00, and the bytes after it; none while the
terminator has not come (R84). -/
def takeString : List Byte → Option (List Byte × List Byte)
  | [] => none
  | c :: cs => if c = 0 then some ([], cs) else (takeString cs).map fun p => (c :: p.1, p.2)

/-- Exactly `n` data bytes, and the bytes after them; none while fewer have come (R85, R86). -/
def takeBytes : Nat → List Byte → Option (List Byte × List Byte)
  | 0, bs => some ([], bs)
  | _ + 1, [] => none
  | n + 1, b :: bs => (takeBytes n bs).map fun p => (b :: p.1, p.2)

/-- The 16-bit interval, low byte first (R87). -/
def assembleInterval (lo hi : Byte) : Word16 := hi ++ lo

/-- Format P: `x y v` (R81). -/
def operandsP : List Byte → Option (Instr × List Byte)
  | x :: y :: v :: r => some (.setpx x y v, r)
  | _ => none

/-- Format G: `f ch` (R81). -/
def operandsG : List Byte → Option (Instr × List Byte)
  | f :: ch :: r => some (.meas f ch, r)
  | _ => none

/-- Format C: `f ch x y` (R81). -/
def operandsC : List Byte → Option (Instr × List Byte)
  | f :: ch :: x :: y :: r => some (.dchr f ch x y, r)
  | _ => none

/-- Format S: `f x y wrap`, string, terminator (R81). -/
def operandsS : List Byte → Option (Instr × List Byte)
  | f :: x :: y :: wrap :: r => (takeString r).map fun p => (.dstr f x y wrap p.1, p.2)
  | _ => none

/-- Format B: `w h x y inv`, `w * h` data bytes (R81). -/
def operandsB : List Byte → Option (Instr × List Byte)
  | w :: h :: x :: y :: inv :: r =>
    (takeBytes (w.toNat * h.toNat) r).map fun p => (.dbmp w h x y inv p.1, p.2)
  | _ => none

/-- Format R: `f x y ivl_lo ivl_hi cb`, string, terminator (R81). -/
def operandsR : List Byte → Option (Instr × List Byte)
  | f :: x :: y :: lo :: hi :: cb :: r =>
    (takeString r).map fun p => (.scrl f x y (assembleInterval lo hi) cb p.1, p.2)
  | _ => none

/-- Format L: 392 data bytes (R81). -/
def operandsL (bs : List Byte) : Option (Instr × List Byte) :=
  (takeBytes FLAT_LEN bs).map fun p => (.encf p.1, p.2)

/-- The operands of an operation from the bytes after its opcode (R81, R92). -/
def operandsOf (m : Mnemonic) (bs : List Byte) : Option (Instr × List Byte) :=
  match m with
  | .init => some (.init, bs)
  | .clear => some (.clear, bs)
  | .setpx => operandsP bs
  | .meas => operandsG bs
  | .dchr => operandsC bs
  | .dstr => operandsS bs
  | .dbmp => operandsB bs
  | .scrl => operandsR bs
  | .tick => some (.tick, bs)
  | .enc => some (.enc, bs)
  | .encf => operandsL bs
  | .send => some (.send, bs)

/-- What the stream spells, total on any bytes (R91). -/
def decode (bs : List Byte) : Decoded :=
  match bs with
  | [] => .incomplete
  | op :: bs' =>
    match mnemonicOf op with
    | none => .reserved op bs'
    | some m =>
      match operandsOf m bs' with
      | none => .incomplete
      | some p => .command p.1 p.2

/-- The low byte of the interval (R87). -/
def intervalLo (ivl : Word16) : Byte := ivl.extractLsb' 0 8

/-- The high byte of the interval (R87). -/
def intervalHi (ivl : Word16) : Byte := ivl.extractLsb' 8 8

/-- The bytes of a command after its opcode (R81). -/
def operandBytes : Instr → List Byte
  | .init => []
  | .clear => []
  | .setpx x y v => [x, y, v]
  | .meas f ch => [f, ch]
  | .dchr f ch x y => [f, ch, x, y]
  | .dstr f x y wrap str => [f, x, y, wrap] ++ str ++ [0]
  | .dbmp w h x y inv data => [w, h, x, y, inv] ++ data
  | .scrl f x y ivl cb str => [f, x, y, intervalLo ivl, intervalHi ivl, cb] ++ str ++ [0]
  | .tick => []
  | .enc => []
  | .encf d => d
  | .send => []

/-- The bytes of a command (R81, R90). -/
def encode (i : Instr) : List Byte := opcodeOf i.mnemonic :: operandBytes i

/-- `n` bytes of `w`, the least significant first. -/
def bytesOfNat : Nat → Nat → List Byte
  | 0, _ => []
  | n + 1, w => BitVec.ofNat 8 w :: bytesOfNat n (w / 256)

/-- The bytes of a command whose first `nbits` bits are `w` and whose other operand bytes are 0: the
longest command is a 255 by 255 bitmap (R85). -/
def tableBytes (nbits w : Nat) : List Byte :=
  bytesOfNat ((nbits + 7) / 8) w ++ List.replicate 65031 0

/-- The instruction the decoder reads from a command whose bits are `w`, bit 0 the least significant
bit of the first byte; every bit above `nbits` is 0 (log 12). -/
def decodeTableWord (nbits w : Nat) : Option Instr :=
  match decode (tableBytes nbits w) with
  | .command i _ => some i
  | .reserved _ _ => none
  | .incomplete => none

/-- The bytes `decodeTableWord` reads: the whole command, or the bits given where they spell none. -/
def tableCommand (nbits w : Nat) : List Byte :=
  match decodeTableWord nbits w with
  | some i => encode i
  | none => bytesOfNat ((nbits + 7) / 8) w

end Sys2Proof
end

