-- ==== Sys2Proof/Machine/Port.lean ====
section
/-! DEFINITION. Which agent moves at an operation boundary and what it does: the reset input, the fault,
the tick agent and the command port (20_memory.md R62, 42_scroll.md R165, 30_encoding.md R80, R91, R93). -/

namespace Sys2Proof.Machine

open Sys2Proof

/-- What the next step of the block is. -/
inductive Pick where
  /-- reset is asserted: the state after the reset event (R250) -/
  | reset (s : State)
  /-- FAULTED = 1: no agent has a step (R29) -/
  | stopped
  /-- the tick agent fires: the state after its transition (R165) -/
  | tick (s : State)
  /-- the command agent has a whole command: the operation, and the state it runs in (R80) -/
  | command (i : Instr) (s : State)
  /-- the command agent has a reserved opcode: the state after its answer (R91) -/
  | badOpcode (s : State)
  /-- the command agent waits for the rest of a command (R93) -/
  | wait (s : State)
deriving DecidableEq, Repr

/-- Whether the tick agent comes next: only while a session is active, and then as the environment
chooses (R165, log 7). -/
def tickIsNext (s : State) : Bool :=
  match s.session with
  | none => false
  | some _ =>
    match s.turns with
    | b :: _ => b
    | [] => Config.freeTurn s.drawn

/-- The state once the environment has chosen whose turn it is: the choice is used up (log 7). -/
def turnTaken (s : State) : State :=
  match s.session with
  | none => s
  | some _ =>
    match s.turns with
    | _ :: bs => { s with turns := bs }
    | [] => { s with drawn := s.drawn + 1 }

/-- The command agent at the head of the command stream: one whole command is consumed, or one reserved
opcode, or nothing (R80, R91, R93). -/
def commandAgent (s : State) : Pick :=
  match decode s.rx with
  | .command i rest => .command i { s with rx := rest }
  | .reserved _ rest => .badOpcode (respond { s with rx := rest } .badOpcode [])
  | .incomplete => .wait s

/-- The bytes after the command, or the reserved opcode, at the head of the command stream; all of them
while no whole command is there, since then none has started (R80, R91, R93). -/
def bytesAfterCommand (bs : List Byte) : List Byte :=
  match decode bs with
  | .command _ rest => rest
  | .reserved _ rest => rest
  | .incomplete => bs

/-- The state once the next operation has started and before it has done anything: its command has been
read (R80); a tick reads none, and in the faulted state nothing starts (R29). -/
def operationStarted (s : State) : State :=
  if s.faulted then s
  else if tickIsNext s then turnTaken s
  else { turnTaken s with rx := bytesAfterCommand s.rx }

/-- The state the reset event finds: an operation that reset falls into is abandoned, its command read and
never answered (70_reset_and_hazards.md R250, log 9). -/
def beforeReset (s : State) : State :=
  match s.resetInput with
  | .released => s
  | .atBoundary => s
  | .inOperation => operationStarted s

/-- The next step of the block. -/
def pick (s : State) : Pick :=
  if s.resetInput ≠ .released then .reset (resetEvent (beforeReset s))
  else if s.faulted then .stopped
  else if tickIsNext s then .tick (tickAgent (turnTaken s))
  else commandAgent (turnTaken s)

/-- `s` with a command at the head of the command stream and, while a session is active, the next turn
given to the command agent (log 12). -/
def placeCommand (s : State) (bytes : List Byte) : State :=
  match s.session with
  | none => { s with rx := bytes ++ s.rx }
  | some _ => { s with rx := bytes ++ s.rx, turns := false :: s.turns }

end Sys2Proof.Machine
end

