-- ==== Sys2Proof/Machine/Step.lean ====
section
/-! DEFINITION. One step of the block: one operation, one tick, one reserved opcode, one reset, or a wait
(20_memory.md R62). -/

namespace Sys2Proof.Machine

open Sys2Proof

/-- The next state, or the fault of a faulted block (R29). -/
def step (s : State) : Host.Outcome State Fault Refusal :=
  match pick s with
  | .reset t => .next t
  | .stopped => .fault .noProgress
  | .tick t => .next t
  | .command i t => exec i t
  | .badOpcode t => .next t
  | .wait t => .next t

/-- `s` with the command whose first `nbits` bits are `w` where the next step reads it (log 12). -/
def State.withFetchWord (s : State) (nbits w : Nat) : State := placeCommand s (tableCommand nbits w)

end Sys2Proof.Machine
end

