-- ==== Sys2Proof/Safety.lean ====
section
/-! DEFINITION. The terms claims are stated in: the invariant of the block, what a glyph and a string
ink, the wire's shape, the literal loop of R135, and runs of operations. No step uses any of them. -/

namespace Sys2Proof.Machine

open Sys2Proof

/-- A device frame's layout with panel address `addr` (30_encoding.md R95): markers, address, end
marker, and 28 column bytes whose bit 7 is 0. -/
def IsDeviceFrame (addr : Byte) (f : Frame) : Prop :=
  f[0] = 0x80 ∧ f[1] = 0x83 ∧ f[2] = addr ∧ f[31] = 0x8F ∧
    ∀ (c : Nat) (h : c < 28), (f[3 + c]'(by show 3 + c < 32; omega)).getLsbD 7 = false

/-- A scroll session is what 10_state.md R28 says of its fields: the text within its capacity and
without a terminator, the index in 0 to SLEN, the font number in range. -/
def SessionOk (cfg : Config) (ses : Session) : Prop :=
  ses.stext.length ≤ cfg.maxTextLen ∧ (∀ c ∈ ses.stext, c ≠ 0) ∧ ses.sidx ≤ ses.stext.length ∧
    ses.sfont.toNat < nfonts cfg

/-- What the wire carries (44_transport.md R203): segments, each the first `k` bytes of a frame pair,
top frame first; `k = 64` is a whole pair. -/
inductive WireLog : List Byte → Prop where
  | empty : WireLog []
  | segment (log : List Byte) (top bottom : Frame) (k : Nat) :
      WireLog log → IsDeviceFrame 0x15 top → IsDeviceFrame 0x17 bottom → k ≤ 64 →
      WireLog (log ++ (top.toList ++ bottom.toList).take k)

/-- The invariant of the block: a session is well formed, valid frame registers hold device frames, and
the wire has carried frame pairs and beginnings of frame pairs only. -/
structure Inv (s : State) : Prop where
  session_ok : ∀ ses, s.session = some ses → SessionOk s.cfg ses
  frames_ok : s.frValid = true → IsDeviceFrame 0x15 s.txf0 ∧ IsDeviceFrame 0x17 s.txf1
  wire_ok : WireLog s.txLog

/-- Cell (`px`, `py`) is inked by the glyph of `code` drawn at (`x`, `y`): it lies in visible column
`k = px - x` and glyph row `r = py - y`, and bit `start_offset + r` of column byte `left_trim + k` is
set (40_glyph_rasterizer.md R112). -/
def inks (font : Font) (code : Byte) (x y px py : Nat) : Bool :=
  decide (x ≤ px ∧ px < x + (measureGlyph font code).visibleWidth) &&
    decide (y ≤ py ∧ py < y + font.fontHeight) &&
    (glyphCol font code ((measureGlyph font code).leftTrim + (px - x))).getLsbD
      (font.startOffset + (py - y))

/-- A character fits at column `x`: `x + visible_width <= 28` (R112). -/
def fits (font : Font) (x : Nat) (code : Byte) : Bool :=
  decide (x + (measureGlyph font code).visibleWidth ≤ WIDTH)

/-- Where R135 places the characters of a string, from cursor (`cx`, `cy`), with start column `x`: at
the cursor if the character fits there; else, with wrap, at the start of the next line if it fits
there; else nowhere, and the string ends. -/
def placements (font : Font) (wrap : Bool) (x : Nat) :
    List Byte → Nat → Nat → List (Byte × Nat × Nat)
  | [], _, _ => []
  | c :: cs, cx, cy =>
    if fits font cx c then
      (c, cx, cy) ::
        placements font wrap x cs (cx + (measureGlyph font c).visibleWidth + 1) cy
    else if wrap && fits font x c then
      (c, x, cy + font.fontHeight + 1) ::
        placements font wrap x cs (x + (measureGlyph font c).visibleWidth + 1)
          (cy + font.fontHeight + 1)
    else []

/-- Cell (`px`, `py`) is inked by some placed character. -/
def inkedBy (font : Font) (ps : List (Byte × Nat × Nat)) (px py : Nat) : Bool :=
  ps.any fun p => inks font p.1 p.2.1 p.2.2 px py

/-- R135's loop as the spec writes it, one iteration per unit of fuel; none when the fuel is out. -/
def stringLoop (font : Font) (wrap : Bool) (x : Nat) (str : List Byte) :
    Nat → Nat → Nat → Nat → Grid → Option StringDrawn
  | 0, _, _, _, _ => none
  | fuel + 1, i, cx, cy, g =>
    match str[i]? with
    | none => some { grid := g, count := i, noProgress := false }
    | some c =>
      match drawGlyph font c cx cy g with
      | none =>
        if wrap = false then some { grid := g, count := i, noProgress := false }
        else if cx = x then some { grid := g, count := i, noProgress := true }
        else stringLoop font wrap x str fuel i x (cy + font.fontHeight + 1) g
      | some r => stringLoop font wrap x str fuel (i + 1) (cx + r.1 + 1) cy r.2

/-- Operations one after another, with nothing between them, stopping at the first that gives no next
state. -/
def execAll : List Instr → State → Host.Outcome State Fault Refusal
  | [], s => .next s
  | i :: is, s =>
    match exec i s with
    | .next t => execAll is t
    | .fault r => .fault r
    | .refused r => .refused r

/-- The statuses an operation can answer (60_exceptions.md R212), and how many result bytes follow each
(30_encoding.md R83). -/
def responses : Instr → List (Status × Nat)
  | .init => [(.ok, 0)]
  | .clear => [(.ok, 0)]
  | .setpx _ _ _ => [(.ok, 0), (.outOfBounds, 0)]
  | .meas _ _ => [(.ok, 3), (.badFont, 0)]
  | .dchr _ _ _ _ => [(.ok, 1), (.outOfBounds, 0), (.badFont, 0)]
  | .dstr _ _ _ _ _ => [(.ok, 1), (.badFont, 0), (.badOperand, 0), (.noProgress, 1)]
  | .dbmp _ _ _ _ _ _ => [(.ok, 0)]
  | .scrl _ _ _ _ _ _ => [(.ok, 0), (.alreadyRunning, 0), (.badFont, 0), (.badOperand, 0)]
  | .tick => [(.ok, 0), (.notRunning, 0)]
  | .enc => [(.ok, 64)]
  | .encf _ => [(.ok, 64)]
  | .send => [(.ok, 0), (.ioError, 1), (.noFrame, 0)]

/-- The state with the running session's interval replaced; an idle block has none. -/
def withInterval (v : Word16) (s : State) : State :=
  { s with session := s.session.map fun ses => { ses with sivl := v } }

/-- Every cell of the surface is `b`. -/
def AllCells (b : Bool) (g : Grid) : Prop := ∀ x y, x < 28 → y < 14 → cell g x y = b

end Sys2Proof.Machine
end

