-- ==== Sys2Proof/Certificates/Slice0/Obligations.lean ====
section
/-! DEFINITION. The statements for the provers, from the numbered rules of spec/. "The spec's own decision
D<n>" in a docstring names a choice the spec marks as its own (92_eei_decisions.md); "log <n>" names a
choice of this model. -/

open Sys2Proof Sys2Proof.Machine

/-! ### The command stream -/

/-- Every byte of every operand survives the round trip: decoding the command of a well-formed operation,
whatever bytes follow it, gives the operation and those bytes (R81, R84 to R88, R90; the command stream is
the spec's own decision D1). -/
def Obligations.DecodeOfEncodeIsTheOperation : Prop :=
  ∀ (i : Instr) (rest : List Byte), i.WellFormed → decode (encode i ++ rest) = .command i rest

/-- What the decoder accepts is exactly what the encoder writes: an accepted operation is well formed, and
the bytes read are its command and the rest (R81, R90, R91; decision D1). -/
def Obligations.DecodedBytesAreTheCommand : Prop :=
  ∀ (bs : List Byte) (i : Instr) (rest : List Byte), decode bs = .command i rest →
    i.WellFormed ∧ bs = encode i ++ rest

/-- The beginning of a command, short of its last byte, is incomplete and never another command (R91, R93;
decision D30). -/
def Obligations.BeginningOfCommandIsIncomplete : Prop :=
  ∀ (i : Instr) (pre suf : List Byte), i.WellFormed → suf ≠ [] → encode i = pre ++ suf →
    decode pre = .incomplete

/-- A command of every operation, written out from R81 and R90, decodes to the operation it spells: the spec's
own examples of DCHR, SETPX, MEAS, DSTR, DBMP and SCRL, the one-byte commands, an SCRL whose interval has two
different bytes (V58), and an ENCF whose last byte alone is 1. -/
def Obligations.SpecCommandsDecode : Prop :=
  decode [0x01] = .command .init [] ∧
  decode [0x02] = .command .clear [] ∧
  decode [0x03, 0x1B, 0x0D, 0x01] = .command (.setpx 27 13 1) [] ∧
  decode [0x04, 0x00, 0x49] = .command (.meas 0 0x49) [] ∧
  decode [0x05, 0x00, 0x41, 0x17, 0x08] = .command (.dchr 0 0x41 23 8) [] ∧
  decode [0x06, 0x00, 0x00, 0x00, 0x00, 0x41, 0x42, 0x00] = .command (.dstr 0 0 0 0 [0x41, 0x42]) [] ∧
  decode [0x07, 0x03, 0x02, 0x1A, 0x0D, 0x00, 0x01, 0x00, 0x01, 0x00, 0x01, 0x01] =
    .command (.dbmp 3 2 26 13 0 [1, 0, 1, 0, 1, 1]) [] ∧
  decode [0x08, 0x00, 0x00, 0x00, 0x64, 0x00, 0x01, 0x41, 0x49, 0x00] =
    .command (.scrl 0 0 0 100 1 [0x41, 0x49]) [] ∧
  decode [0x08, 0x00, 0x00, 0x00, 0x2C, 0x01, 0x07, 0x42, 0x00] =
    .command (.scrl 0 0 0 300 7 [0x42]) [] ∧
  decode [0x09] = .command .tick [] ∧
  decode [0x0A] = .command .enc [] ∧
  decode (0x0B :: (List.replicate 391 0x00 ++ [0x01])) =
    .command (.encf (List.replicate 391 0x00 ++ [0x01])) [] ∧
  decode [0x0C] = .command .send []

/-- The bytes of every command, for all operands (R81, R84 to R87, R90; the opcodes are the spec's own decision
D1, the interval's byte order D31): the opcode, then the operands in the order of its format, a string ended by
0x00, the interval low byte first. -/
def Obligations.EncodeWritesTheSpecsBytes : Prop :=
  encode .init = [0x01] ∧ encode .clear = [0x02] ∧ encode .tick = [0x09] ∧ encode .enc = [0x0A] ∧
  encode .send = [0x0C] ∧
  (∀ x y v, encode (.setpx x y v) = [0x03, x, y, v]) ∧
  (∀ f ch, encode (.meas f ch) = [0x04, f, ch]) ∧
  (∀ f ch x y, encode (.dchr f ch x y) = [0x05, f, ch, x, y]) ∧
  (∀ f x y wrap str, encode (.dstr f x y wrap str) = [0x06, f, x, y, wrap] ++ str ++ [0x00]) ∧
  (∀ w h x y inv data, encode (.dbmp w h x y inv data) = [0x07, w, h, x, y, inv] ++ data) ∧
  (∀ f x y (ivl : Word16) cb str, ∃ lo hi : Byte, ivl.toNat = 256 * hi.toNat + lo.toNat ∧
    encode (.scrl f x y ivl cb str) = [0x08, f, x, y, lo, hi, cb] ++ str ++ [0x00]) ∧
  ∀ d, encode (.encf d) = 0x0B :: d

/-- The reserved opcodes are 0x00 and 0x0D to 0xFF and no other byte; the command agent consumes the one
byte, answers `[05]` and changes nothing else, whatever follows (R91; decision D30). `turnTaken` is the
environment's used-up choice of turn (log 7). -/
def Obligations.ReservedOpcodesAnswerBadOpcode : Prop :=
  (∀ (op : Byte) (rest : List Byte),
    decode (op :: rest) = .reserved op rest ↔ (op.toNat = 0 ∨ 0x0D ≤ op.toNat)) ∧
  ∀ (s : State) (op : Byte) (rest : List Byte), s.resetInput = .released → s.faulted = false →
    tickIsNext s = false → s.rx = op :: rest → (op.toNat = 0 ∨ 0x0D ≤ op.toNat) →
    step s = .next { turnTaken s with rx := rest, respLog := s.respLog ++ [0x05] }

/-! ### The step -/

/-- A step runs the decoded command: when the command agent has the turn and the bytes on the command port
decode to an operation, the step is that operation on the state with those bytes consumed (R62, R80).
`turnTaken` is the environment's used-up choice of turn, nothing while no session is active (log 7). -/
def Obligations.StepRunsTheDecodedCommand : Prop :=
  ∀ (s : State) (i : Instr) (rest : List Byte), s.resetInput = .released → s.faulted = false →
    tickIsNext s = false → decode s.rx = .command i rest →
    step s = exec i { turnTaken s with rx := rest }

/-- A command placed where the next step reads is the operation the next step runs, on the state as it was
before it was placed (log 12). -/
def Obligations.PlacedCommandRunsNext : Prop :=
  ∀ (s : State) (nbits w : Nat) (i : Instr), s.resetInput = .released → s.faulted = false →
    decodeTableWord nbits w = some i → step (s.withFetchWord nbits w) = exec i s

/-- Commands are executed in arrival order, each as one indivisible transition (R14, R62, R80; decision D19):
in an idle block that holds the bytes of a list of well-formed operations, as many steps as operations run
them one after another and consume exactly those bytes. SCRL (after which a tick may come between) and a
wrapping DSTR (which may fault) are left to the single-step statements. -/
def Obligations.CommandsRunInArrivalOrder : Prop :=
  ∀ (is : List Instr) (s : State), s.resetInput = .released → s.faulted = false → s.session = none →
    (∀ i ∈ is, i.WellFormed) →
    (∀ i ∈ is, (∀ f x y ivl cb str, i ≠ .scrl f x y ivl cb str) ∧
      ∀ f x y wrap str, i = .dstr f x y wrap str → wrap = 0) →
    s.rx = is.flatMap encode →
    core.run is.length s = execAll is { s with rx := [] }

/-- The tick agent's firing is TICK's transition without a response: the same state but for the response
byte, and no command byte is consumed (R164, R165; decision D24). -/
def Obligations.TickAgentFiresTicksTransition : Prop :=
  ∀ s : State, s.resetInput = .released → s.faulted = false → tickIsNext s = true →
    ∃ t, step s = .next t ∧ t.rx = s.rx ∧ t.respLog = s.respLog ∧ t.txLog = s.txLog ∧
      exec .tick (turnTaken s) = .next { t with respLog := s.respLog ++ [0x00] }

/-- While no session is active the tick agent has no step, and no UPDATE is emitted; the block stays idle
unless the step runs SCRL (R64, R165, R216; decisions D23, D24). -/
def Obligations.IdleBlockEmitsNoUpdate : Prop :=
  ∀ s t : State, s.session = none → s.resetInput = .released → step s = .next t →
    tickIsNext s = false ∧ t.evLog = s.evLog ∧
      (t.session = none ∨ ∃ f x y ivl cb str rest,
        decode s.rx = .command (.scrl f x y ivl cb str) rest)

/-- The block stops in exactly one case: FAULTED is 1 and reset is not asserted; no instruction is refused
(R29, R214, R215; that a waiting block goes on is log 5). -/
def Obligations.BlockStopsOnlyWhenFaulted : Prop :=
  ∀ s : State,
    (step s = .fault .noProgress ↔ (s.faulted = true ∧ s.resetInput = .released)) ∧
    (∀ r, step s ≠ .refused r) ∧
    (s.faulted = false ∨ s.resetInput ≠ .released → ∃ t, step s = .next t)

/-- FAULTED is set only by DSTR's fault: a step from an unfaulted state to a faulted one runs a DSTR with
wrap, with its string within the capacity and its font present, some character of which does not fit at the
start column (R29, R135, R214; decision D13). -/
def Obligations.OnlyWrappingDstrSetsFaulted : Prop :=
  ∀ s t : State, s.faulted = false → step s = .next t → t.faulted = true →
    ∃ f x y wrap str rest, decode s.rx = .command (.dstr f x y wrap str) rest ∧ wrap ≠ 0 ∧
      str.length ≤ s.cfg.maxTextLen ∧ f.toNat < nfonts s.cfg ∧
      ∃ c ∈ str, 28 < x.toNat + (measureGlyph (fontAt s.cfg f) c).visibleWidth

/-- A command the host has not finished: no operation starts and nothing changes but the environment's
used-up choice of turn; in an idle block nothing changes at all (R93, decision D30; that the wait is a
step is the model's choice, log 5). -/
def Obligations.UnfinishedCommandWaits : Prop :=
  ∀ s : State, s.resetInput = .released → s.faulted = false → tickIsNext s = false →
    decode s.rx = .incomplete →
    step s = .next (turnTaken s) ∧ (s.session = none → step s = .next s)

/-- The reset event leaves, from any state, faulted or not, and whether it comes between operations or inside
one, the flags at 0, no session, empty logs, nothing on the response port and the configuration as it was (R34,
R250; decision D27; that the one step also releases the reset input, and that the response port's history is
emptied, are log 9). -/
def Obligations.ResetEventClearsTheBlock : Prop :=
  ∀ s : State, s.resetInput ≠ .released →
    ∃ t, step s = .next t ∧ t.frValid = false ∧ t.session = none ∧ t.faulted = false ∧
      t.txLog = [] ∧ t.evLog = [] ∧ t.respLog = [] ∧ t.cfg = s.cfg ∧ t.resetInput = .released

/-- Reset inside an operation abandons it with no response (R80, R250; decision D27): the command that was
being executed, or the reserved opcode, has been read and is gone, and its response is never written. A reset
between operations, inside a tick, in the faulted state or while a command is unfinished takes no command: the
unread bytes stay, which is the model's choice, log 9. -/
def Obligations.ResetAbandonsTheOperation : Prop :=
  ∀ s : State, s.resetInput ≠ .released →
    ∃ t, step s = .next t ∧ t.respLog = [] ∧
      (s.resetInput = .inOperation → s.faulted = false → tickIsNext s = false →
        (∀ i rest, decode s.rx = .command i rest → t.rx = rest) ∧
        (∀ op rest, decode s.rx = .reserved op rest → t.rx = rest) ∧
        (decode s.rx = .incomplete → t.rx = s.rx)) ∧
      (s.resetInput = .atBoundary ∨ s.faulted = true ∨ tickIsNext s = true → t.rx = s.rx)

/-! ### Invariants and whole-machine rules -/

/-- Every step keeps the invariant: a session is well formed (R28), valid frame registers hold device
frames (R26, R95), and the wire has carried whole frame pairs and beginnings of frame pairs only (R203). -/
def Obligations.StepKeepsTheInvariant : Prop :=
  ∀ s t : State, Inv s → step s = .next t → Inv t

/-- The invariant holds right after reset. -/
def Obligations.InvariantHoldsAtReset : Prop := Inv State.reset

/-- What reset leaves (R34; decision D27): FR_VALID, SCROLL_ACTIVE and FAULTED 0, the logs empty. Nothing
is said of FB and the frame registers: they are free (log 2). -/
def Obligations.ResetLeavesFlagsClearAndLogsEmpty : Prop :=
  State.reset.frValid = false ∧ State.reset.scrollActive = false ∧ State.reset.session = none ∧
    State.reset.faulted = false ∧ State.reset.txLog = [] ∧ State.reset.evLog = []

/-- The configuration is never written (R31; that it is carried in State is log 1). -/
def Obligations.ConfigurationNeverChanges : Prop :=
  ∀ s t : State, step s = .next t → t.cfg = s.cfg

/-- The output histories only grow, but for reset (R30; the response log is the model's, log 6). -/
def Obligations.LogsOnlyGrow : Prop :=
  ∀ s t : State, s.resetInput = .released → step s = .next t →
    s.txLog <+: t.txLog ∧ s.evLog <+: t.evLog ∧ s.respLog <+: t.respLog

/-- The frame registers and FR_VALID are written by ENC and ENCF only; the tick agent writes none of them
(R25, R26, R182; decision D16). -/
def Obligations.OnlyEncodersWriteFrameRegisters : Prop :=
  (∀ (i : Instr) (s t : State), exec i s = .next t → i ≠ .enc → (∀ d, i ≠ .encf d) →
    t.txf0 = s.txf0 ∧ t.txf1 = s.txf1 ∧ t.frValid = s.frValid) ∧
  ∀ s : State, (tickAgent s).txf0 = s.txf0 ∧ (tickAgent s).txf1 = s.txf1 ∧
    (tickAgent s).frValid = s.frValid

/-- Bytes reach the sink by SEND only, UPDATE events come from ticks only, and FB is written by INIT,
CLEAR, SETPX, DCHR, DSTR, DBMP and TICK only (R51, R203, R216; decision D23). -/
def Obligations.EachSpaceHasItsWriters : Prop :=
  ∀ (i : Instr) (s t : State), exec i s = .next t →
    (i ≠ .send → t.txLog = s.txLog) ∧ (i ≠ .tick → t.evLog = s.evLog) ∧
    (i.mnemonic ∈ [.meas, .scrl, .enc, .encf, .send] → t.fb = s.fb) ∧
    (tickAgent s).txLog = s.txLog

/-- The session state machine (R160): CLEAR moves either state to idle; SCRL moves idle to scrolling unless
its operands are refused, and changes nothing while scrolling; TICK and the tick agent change at most the
read index; every other operation leaves the session as it is; a step that ends a session runs CLEAR or is
the reset event. -/
def Obligations.SessionStateMachine : Prop :=
  (∀ s t : State, s.session ≠ none → step s = .next t → t.session = none →
    s.resetInput ≠ .released ∨ ∃ rest, decode s.rx = .command .clear rest) ∧
  (∀ s : State, s.resetInput ≠ .released → ∃ t, step s = .next t ∧ t.session = none) ∧
  ∀ (i : Instr) (s t : State), exec i s = .next t →
    (i = .clear → t.session = none) ∧
    (∀ f x y ivl cb str, i = .scrl f x y ivl cb str →
      (s.session = none →
        (t.session.isSome = true ↔ (str.length ≤ s.cfg.maxTextLen ∧ f.toNat < nfonts s.cfg))) ∧
      (s.session ≠ none → t.session = s.session)) ∧
    (i = .tick → (s.session = none → t.session = none) ∧
      ∀ ses, s.session = some ses → ∃ k, t.session = some { ses with sidx := k }) ∧
    (i.mnemonic ∉ [.clear, .scrl, .tick] → t.session = s.session) ∧
    ∀ ses, s.session = some ses → ∃ k, (tickAgent s).session = some { ses with sidx := k }

/-- A session ends by CLEAR or reset only, and its text, font, origin, interval and tag never change while it
lasts (R27, R160, R66). -/
def Obligations.SessionEndsOnlyByClearOrReset : Prop :=
  ∀ (s t : State) (ses : Session), s.session = some ses → s.resetInput = .released → step s = .next t →
    (∃ rest, decode s.rx = .command .clear rest ∧ t.session = none) ∨
      ∃ k, t.session = some { ses with sidx := k }

/-- Every operation completes with one response, its status one R212 allows the operation and its result
bytes as many as R83 gives that status (R80, R83, R210, R212; decisions D1, D2). -/
def Obligations.EveryOperationAnswersOnceByTheTable : Prop :=
  ∀ (i : Instr) (s : State), ∃ t st rs, exec i s = .next t ∧
    t.respLog = s.respLog ++ statusCode st :: rs ∧ (st, rs.length) ∈ responses i

/-- An operation that answers an error changes no state but the response port; SEND's IO_ERROR also extends
TXLOG by exactly the bytes the sink accepted, of the top frame alone or of the whole top frame and the bottom
frame, and uses up the answers the sink gave (R211; the used-up answers are log 8). -/
def Obligations.ErrorsChangeNothing : Prop :=
  ∀ (i : Instr) (s t : State) (st : Status) (rs : List Byte), exec i s = .next t →
    t.respLog = s.respLog ++ statusCode st :: rs → st ≠ .ok → st ≠ .noProgress →
    (st ≠ .ioError → t = { s with respLog := t.respLog }) ∧
    (st = .ioError →
      (sinkCount s 32 < 32 ∧ t = { s with
        respLog := t.respLog
        txLog := s.txLog ++ s.txf0.toList.take (sinkCount s 32)
        sinkAnswers := (sinkAnswered s).sinkAnswers, drawn := (sinkAnswered s).drawn }) ∨
      (sinkCount s 32 = 32 ∧ sinkCount (sinkAnswered s) 32 < 32 ∧ t = { s with
        respLog := t.respLog
        txLog := s.txLog ++ s.txf0.toList ++ s.txf1.toList.take (sinkCount (sinkAnswered s) 32)
        sinkAnswers := (sinkAnswered (sinkAnswered s)).sinkAnswers
        drawn := (sinkAnswered (sinkAnswered s)).drawn }))

/-! ### Cells, glyphs -/

/-- `FbWrite(x, y, v)` (R54): in range it sets the named cell to `v` and no other cell changes; out of range
nothing happens. -/
def Obligations.CellWriteIsBoundsChecked : Prop :=
  ∀ (g : Grid) (x y : Nat) (v : Bool),
    (x < 28 ∧ y < 14 → cell (fbWrite g x y v) x y = v ∧
      ∀ px py, ¬(px = x ∧ py = y) → cell (fbWrite g x y v) px py = cell g px py) ∧
    (¬(x < 28 ∧ y < 14) → fbWrite g x y v = g)

/-- The glyph a code selects (R57): bit 7 is ignored; a code below the space after masking, or beyond the
table, selects entry 0; every other code its distance from the space. The index is always in the table
(decisions D6, D7). -/
def Obligations.GlyphIndexMasksAndClamps : Prop :=
  ∀ (font : Font) (code : Byte),
    glyphIndex font code < font.glyphCount ∧
    (code.toNat % 128 < 0x20 ∨ font.glyphCount ≤ code.toNat % 128 - 0x20 →
      glyphIndex font code = 0) ∧
    (0x20 ≤ code.toNat % 128 → code.toNat % 128 - 0x20 < font.glyphCount →
      glyphIndex font code = code.toNat % 128 - 0x20)

/-- Every font read is inside the table (R56): each column of the slot, all of which `Measure` reads, and each
visible column `DrawGlyph` reads is a column of the slot. -/
def Obligations.FontReadsStayInTheTable : Prop :=
  ∀ (font : Font) (code : Byte),
    (∀ c < font.fontWidth, glyphIndex font code * font.fontWidth + c < font.table.length) ∧
    ∀ k < (measureGlyph font code).visibleWidth, (measureGlyph font code).leftTrim + k < font.fontWidth

/-- `Measure` finds the ink (R111): with no non-zero column it is `(0, fw - 1, 1)`; else the visible range
begins and ends in a non-zero column and every column outside it is zero (decisions D8, D9). -/
def Obligations.MeasureFindsTheInk : Prop :=
  ∀ (font : Font) (code : Byte),
    ((∀ c < font.fontWidth, glyphCol font code c = 0) →
      measureGlyph font code = { leftTrim := 0, rightTrim := font.fontWidth - 1, visibleWidth := 1 }) ∧
    ((∃ c < font.fontWidth, glyphCol font code c ≠ 0) →
      glyphCol font code (measureGlyph font code).leftTrim ≠ 0 ∧
      (∀ c < (measureGlyph font code).leftTrim, glyphCol font code c = 0) ∧
      glyphCol font code ((measureGlyph font code).leftTrim + (measureGlyph font code).visibleWidth - 1) ≠ 0 ∧
      ∀ c < font.fontWidth,
        (measureGlyph font code).leftTrim + (measureGlyph font code).visibleWidth ≤ c →
        glyphCol font code c = 0)

/-- The laws of `Measure` (R115): the trims and the visible width fill the slot, and the visible width is at
least 1, for all 256 codes. -/
def Obligations.ExtentFillsTheSlot : Prop :=
  ∀ (font : Font) (code : Byte),
    (measureGlyph font code).leftTrim + (measureGlyph font code).visibleWidth +
      (measureGlyph font code).rightTrim = font.fontWidth ∧
    1 ≤ (measureGlyph font code).visibleWidth ∧ (measureGlyph font code).visibleWidth ≤ font.fontWidth

/-- MEAS (R113): its command; BAD_FONT when the font does not exist; else the measured triple, untruncated;
no state is written. An all-zero glyph measures `(0, fw - 1, 1)`; a code below 0x20 after masking or beyond
the table measures as glyph 0. -/
def Obligations.MeasAnswersTheExtent : Prop :=
  ∀ (f ch : Byte) (s : State),
    encode (.meas f ch) = [0x04, f, ch] ∧
    (nfonts s.cfg ≤ f.toNat →
      exec (.meas f ch) s = .next { s with respLog := s.respLog ++ [0x04] }) ∧
    (f.toNat < nfonts s.cfg → ∃ lt rt vw : Byte,
      lt.toNat = (measureGlyph (fontAt s.cfg f) ch).leftTrim ∧
      rt.toNat = (measureGlyph (fontAt s.cfg f) ch).rightTrim ∧
      vw.toNat = (measureGlyph (fontAt s.cfg f) ch).visibleWidth ∧
      exec (.meas f ch) s = .next { s with respLog := s.respLog ++ [0x00, lt, rt, vw] }) ∧
    ((∀ c < (fontAt s.cfg f).fontWidth, glyphCol (fontAt s.cfg f) ch c = 0) →
      measureGlyph (fontAt s.cfg f) ch =
        { leftTrim := 0, rightTrim := (fontAt s.cfg f).fontWidth - 1, visibleWidth := 1 }) ∧
    (ch.toNat % 128 < 0x20 ∨ (fontAt s.cfg f).glyphCount ≤ ch.toNat % 128 - 0x20 →
      measureGlyph (fontAt s.cfg f) ch = measureGlyph (fontAt s.cfg f) 0x20)

/-- DCHR (R114): its command; BAD_FONT first; OUT_OF_BOUNDS, with nothing written, when
`x + visible_width > 28`; else exactly the inked cells are lit, lit cells stay lit, rows past 13 are dropped,
and the visible width is answered. Nothing else is written. -/
def Obligations.DchrLightsTheInkedCells : Prop :=
  ∀ (f ch x y : Byte) (s : State),
    encode (.dchr f ch x y) = [0x05, f, ch, x, y] ∧
    (nfonts s.cfg ≤ f.toNat →
      exec (.dchr f ch x y) s = .next { s with respLog := s.respLog ++ [0x04] }) ∧
    (f.toNat < nfonts s.cfg → 28 < x.toNat + (measureGlyph (fontAt s.cfg f) ch).visibleWidth →
      exec (.dchr f ch x y) s = .next { s with respLog := s.respLog ++ [0x01] }) ∧
    (f.toNat < nfonts s.cfg → x.toNat + (measureGlyph (fontAt s.cfg f) ch).visibleWidth ≤ 28 →
      ∃ (g : Grid) (w : Byte), w.toNat = (measureGlyph (fontAt s.cfg f) ch).visibleWidth ∧
        (∀ px py, px < 28 → py < 14 →
          cell g px py = (cell s.fb px py || inks (fontAt s.cfg f) ch x.toNat y.toNat px py)) ∧
        exec (.dchr f ch x y) s = .next { s with fb := g, respLog := s.respLog ++ [0x00, w] })

/-! ### The framebuffer -/

/-- INIT (R132): every cell becomes 0 and OK is answered; the session, the frame registers and everything else
stay (decision D28). -/
def Obligations.InitZeroesTheSurface : Prop :=
  ∀ s : State, ∃ g : Grid, AllCells false g ∧
    exec .init s = .next { s with fb := g, respLog := s.respLog ++ [0x00] }

/-- CLEAR (R133): its command; the session is discarded, every cell becomes 0, OK is answered and nothing else
changes: no event, the frame registers untouched; the tick agent has no step after it; with no session it is
INIT; a following SCRL with a font that exists and a text that fits succeeds. -/
def Obligations.ClearCancelsAndZeroes : Prop :=
  encode .clear = [0x02] ∧
  ∀ s : State, ∃ g : Grid, AllCells false g ∧
    exec .clear s = .next { s with session := none, fb := g, respLog := s.respLog ++ [0x00] } ∧
    (∀ t, exec .clear s = .next t → t.scrollActive = false ∧ tickIsNext t = false) ∧
    (s.session = none → exec .clear s = exec .init s) ∧
    ∀ (f x y : Byte) (ivl : Word16) (cb : Byte) (str : List Byte) (t : State),
      exec .clear s = .next t → str.length ≤ s.cfg.maxTextLen → f.toNat < nfonts s.cfg →
      ∃ u, exec (.scrl f x y ivl cb str) t = .next u ∧ u.scrollActive = true ∧
        u.respLog = t.respLog ++ [0x00]

/-- SETPX (R134): out of range `[01]` and nothing is written; in range the one cell becomes `v ≠ 0`, every
other cell and everything else stays (decisions D4, D5). -/
def Obligations.SetpxWritesOneCell : Prop :=
  ∀ (x y v : Byte) (s : State),
    (28 ≤ x.toNat ∨ 14 ≤ y.toNat →
      exec (.setpx x y v) s = .next { s with respLog := s.respLog ++ [0x01] }) ∧
    (x.toNat < 28 → y.toNat < 14 → ∃ g : Grid,
      (∀ px py, px < 28 → py < 14 →
        cell g px py = if px = x.toNat ∧ py = y.toNat then decide (v ≠ 0) else cell s.fb px py) ∧
      exec (.setpx x y v) s = .next { s with fb := g, respLog := s.respLog ++ [0x00] })

/-- DSTR's refusals (R135, R84, R110, R218): a string over the capacity is BAD_OPERAND before the font is
looked at, then a font that does not exist is BAD_FONT; nothing is drawn (decisions D25, D26, D37). -/
def Obligations.DstrRefusesBadOperands : Prop :=
  ∀ (f x y wrap : Byte) (str : List Byte) (s : State),
    (s.cfg.maxTextLen < str.length →
      exec (.dstr f x y wrap str) s = .next { s with respLog := s.respLog ++ [0x08] }) ∧
    (str.length ≤ s.cfg.maxTextLen → nfonts s.cfg ≤ f.toNat →
      exec (.dstr f x y wrap str) s = .next { s with respLog := s.respLog ++ [0x04] })

/-- DSTR completes (R135) unless wrap is set and some character does not fit at the start column: the placed
characters are OR-ed onto the surface, the count of them is answered, nothing else changes; with wrap every
character is placed (decisions D10 to D14). -/
def Obligations.DstrDrawsThePlacedCharacters : Prop :=
  ∀ (f x y wrap : Byte) (str : List Byte) (s : State),
    str.length ≤ s.cfg.maxTextLen → f.toNat < nfonts s.cfg →
    (wrap = 0 ∨ ∀ c ∈ str, x.toNat + (measureGlyph (fontAt s.cfg f) c).visibleWidth ≤ 28) →
    ∃ (g : Grid) (n : Byte),
      n.toNat = (placements (fontAt s.cfg f) (decide (wrap ≠ 0)) x.toNat str x.toNat y.toNat).length ∧
      (wrap ≠ 0 → n.toNat = str.length) ∧
      (∀ px py, px < 28 → py < 14 → cell g px py = (cell s.fb px py ||
        inkedBy (fontAt s.cfg f)
          (placements (fontAt s.cfg f) (decide (wrap ≠ 0)) x.toNat str x.toNat y.toNat) px py)) ∧
      exec (.dstr f x y wrap str) s = .next { s with fb := g, respLog := s.respLog ++ [0x00, n] }

/-- DSTR faults (R135, R214): with wrap set and a character that does not fit at the start column, the
characters before the first such are drawn and stay, `[07, count]` is answered with their number, FAULTED
becomes 1, and nothing else changes (decision D13; that this is a next state is log 4). -/
def Obligations.DstrFaultsWithoutProgress : Prop :=
  ∀ (f x y wrap : Byte) (str : List Byte) (s : State),
    str.length ≤ s.cfg.maxTextLen → f.toNat < nfonts s.cfg → wrap ≠ 0 →
    (∃ c ∈ str, 28 < x.toNat + (measureGlyph (fontAt s.cfg f) c).visibleWidth) →
    ∃ (g : Grid) (n : Byte),
      n.toNat = (str.takeWhile fun c =>
        decide (x.toNat + (measureGlyph (fontAt s.cfg f) c).visibleWidth ≤ 28)).length ∧
      (∀ px py, px < 28 → py < 14 → cell g px py = (cell s.fb px py ||
        inkedBy (fontAt s.cfg f)
          (placements (fontAt s.cfg f) true x.toNat str x.toNat y.toNat) px py)) ∧
      exec (.dstr f x y wrap str) s =
        .next { s with fb := g, faulted := true, respLog := s.respLog ++ [0x07, n] }

/-- The model's string draw is R135's loop: with two iterations for each character and one more, the loop as
the spec writes it ends, and leaves what the model's draw leaves (R135, R215). -/
def Obligations.StringDrawIsTheSpecLoop : Prop :=
  ∀ (font : Font) (wrap : Bool) (x y : Nat) (str : List Byte) (g : Grid) (fuel : Nat),
    2 * str.length + 1 ≤ fuel →
    stringLoop font wrap x str fuel 0 x y g = some (drawString font wrap x str x y 0 g)

/-- DBMP (R136): every covered in-range cell is overwritten with `B(i, j) xor inv`, every other cell and
everything else stays, and the answer is always OK (R85; decision D15). -/
def Obligations.DbmpOverwritesTheRectangle : Prop :=
  ∀ (w h x y inv : Byte) (data : List Byte) (s : State), ∃ g : Grid,
    (∀ px py, px < 28 → py < 14 → cell g px py =
      if (x.toNat ≤ px ∧ px < x.toNat + w.toNat) ∧ (y.toNat ≤ py ∧ py < y.toNat + h.toNat) then
        xor (decide (data.getD ((py - y.toNat) * w.toNat + (px - x.toNat)) 0 ≠ 0)) (decide (inv ≠ 0))
      else cell s.fb px py) ∧
    exec (.dbmp w h x y inv data) s = .next { s with fb := g, respLog := s.respLog ++ [0x00] }

/-- A glyph draw never erases: a lit cell is lit after DCHR and DSTR, whatever they answer (R51, R112). -/
def Obligations.GlyphDrawsNeverErase : Prop :=
  ∀ (i : Instr) (s t : State), i.mnemonic ∈ [.dchr, .dstr] → exec i s = .next t →
    ∀ px py, cell s.fb px py = true → cell t.fb px py = true

/-- Drawing is idempotent: repeating INIT, CLEAR, SETPX, DCHR, DSTR or DBMP with the same operands leaves the
surface as the first left it (R61, R135). -/
def Obligations.DrawingIsIdempotent : Prop :=
  ∀ (i : Instr) (s t u : State),
    i.mnemonic ∈ [.init, .clear, .setpx, .dchr, .dstr, .dbmp] →
    exec i s = .next t → exec i t = .next u → u.fb = t.fb

/-! ### Scrolling -/

/-- SCRL (R163, R65, R218): its refusals in order, `[08]`, `[04]`, `[02]`, each with nothing changed; else the
session is created with the operands, the read index 0 and the text's own copy, `[00]` is answered and
nothing else changes: FB is not touched (decisions D21, D37). -/
def Obligations.ScrlCreatesTheSession : Prop :=
  ∀ (f x y : Byte) (ivl : Word16) (cb : Byte) (str : List Byte) (s : State),
    (s.cfg.maxTextLen < str.length →
      exec (.scrl f x y ivl cb str) s = .next { s with respLog := s.respLog ++ [0x08] }) ∧
    (str.length ≤ s.cfg.maxTextLen → nfonts s.cfg ≤ f.toNat →
      exec (.scrl f x y ivl cb str) s = .next { s with respLog := s.respLog ++ [0x04] }) ∧
    (str.length ≤ s.cfg.maxTextLen → f.toNat < nfonts s.cfg → s.session ≠ none →
      exec (.scrl f x y ivl cb str) s = .next { s with respLog := s.respLog ++ [0x02] }) ∧
    (str.length ≤ s.cfg.maxTextLen → f.toNat < nfonts s.cfg → s.session = none →
      exec (.scrl f x y ivl cb str) s = .next { s with
        session := some { stext := str, sidx := 0, sfont := f, sx := x, sy := y, sivl := ivl, scb := cb }
        respLog := s.respLog ++ [0x00] })

/-- TICK (R164): with no session `[09]` and nothing changed; else the read index advances through 0 to SLEN and
back to 0, the surface holds exactly the characters of the suffix placed without wrap, one UPDATE with the
tag and that surface is emitted, `[00]` is answered, and nothing else changes (decisions D21 to D23). -/
def Obligations.TickShowsTheSuffix : Prop :=
  ∀ s : State,
    (s.session = none → exec .tick s = .next { s with respLog := s.respLog ++ [0x09] }) ∧
    ∀ ses, s.session = some ses → ∃ (g : Grid) (k : Nat),
      k = (if ses.stext.length < ses.sidx + 1 then 0 else ses.sidx + 1) ∧
      (∀ px py, px < 28 → py < 14 → cell g px py =
        inkedBy (fontAt s.cfg ses.sfont)
          (placements (fontAt s.cfg ses.sfont) false ses.sx.toNat (ses.stext.drop k) ses.sx.toNat
            ses.sy.toNat) px py) ∧
      exec .tick s = .next { s with
        session := some { ses with sidx := k }
        fb := g
        evLog := s.evLog ++ [{ tag := ses.scb, grid := g }]
        respLog := s.respLog ++ [0x00] }

/-- Ticks rotate the text (R167): after `k` ticks of a session at its start, with nothing between, the read
index is `k mod (SLEN + 1)` and, for `k ≥ 1`, the surface is the drawing of that suffix on a zeroed surface,
whatever it held before; `k` events with the session's tag are emitted. -/
def Obligations.TicksRotateTheText : Prop :=
  ∀ (s : State) (ses : Session) (k : Nat), s.session = some ses → ses.sidx = 0 →
    ∃ t, execAll (List.replicate k .tick) s = .next t ∧
      t.session = some { ses with sidx := k % (ses.stext.length + 1) } ∧
      (1 ≤ k → ∀ px py, px < 28 → py < 14 → cell t.fb px py =
        inkedBy (fontAt s.cfg ses.sfont)
          (placements (fontAt s.cfg ses.sfont) false ses.sx.toNat
            (ses.stext.drop (k % (ses.stext.length + 1))) ses.sx.toNat ses.sy.toNat) px py) ∧
      (t.evLog.drop s.evLog.length).map Update.tag = List.replicate k ses.scb

/-- The life of a session (R167): from an idle block, an accepted SCRL, any number of ticks and CLEAR leave the
surface all zero and the session released, and an accepted SCRL then succeeds again. -/
def Obligations.ScrollLifeCycle : Prop :=
  ∀ (s : State) (f x y : Byte) (ivl : Word16) (cb : Byte) (str : List Byte) (k : Nat),
    s.session = none → str.length ≤ s.cfg.maxTextLen → f.toNat < nfonts s.cfg →
    ∃ t, execAll (.scrl f x y ivl cb str :: (List.replicate k .tick ++ [.clear])) s = .next t ∧
      AllCells false t.fb ∧ t.scrollActive = false ∧ t.txLog = s.txLog ∧
      ∃ u, exec (.scrl f x y ivl cb str) t = .next u ∧ u.scrollActive = true ∧
        u.respLog = t.respLog ++ [0x00]

/-- SCRL is the test-and-set (R65): after an accepted SCRL and any number of ticks a second SCRL, its operands
good, is answered `[02]` and the running session stays as it was. -/
def Obligations.SecondScrlIsRefused : Prop :=
  ∀ (s : State) (f x y : Byte) (ivl : Word16) (cb : Byte) (str : List Byte) (k : Nat)
    (f' x' y' : Byte) (ivl' : Word16) (cb' : Byte) (str' : List Byte),
    s.session = none → str.length ≤ s.cfg.maxTextLen → f.toNat < nfonts s.cfg →
    str'.length ≤ s.cfg.maxTextLen → f'.toNat < nfonts s.cfg →
    ∃ t, execAll (.scrl f x y ivl cb str :: List.replicate k .tick) s = .next t ∧
      t.scrollActive = true ∧
      exec (.scrl f' x' y' ivl' cb' str') t = .next { t with respLog := t.respLog ++ [0x02] }

/-- The interval is never read (R166): a step of a block whose session has another interval does the same, but
for the interval kept. -/
def Obligations.IntervalIsNeverRead : Prop :=
  ∀ (s t : State) (v : Word16), step s = .next t →
    ∃ u, step (withInterval v s) = .next u ∧ withInterval v u = withInterval v t

/-! ### The encoder and the transport -/

/-- ENC (R183): its command; the frames have R95's layout, bit `r` of column byte `c` is row `r` of the half,
FR_VALID becomes 1, the response is OK and the 64 bytes, and nothing else changes; an all-zero surface gives
the `all_dark` pair, an all-one surface the `all_bright` pair. -/
def Obligations.EncEncodesTheSurface : Prop :=
  encode .enc = [0x0A] ∧
  ∀ s : State, ∃ a b : Frame,
    IsDeviceFrame 0x15 a ∧ IsDeviceFrame 0x17 b ∧
    (∀ (c r : Nat) (hc : c < 28), r < 7 →
      (a[3 + c]'(by show 3 + c < 32; omega)).getLsbD r = cell s.fb c r ∧
      (b[3 + c]'(by show 3 + c < 32; omega)).getLsbD r = cell s.fb c (7 + r)) ∧
    (AllCells false s.fb → a.toList = [0x80, 0x83, 0x15] ++ List.replicate 28 0x00 ++ [0x8F] ∧
      b.toList = [0x80, 0x83, 0x17] ++ List.replicate 28 0x00 ++ [0x8F]) ∧
    (AllCells true s.fb → a.toList = [0x80, 0x83, 0x15] ++ List.replicate 28 0x7F ++ [0x8F] ∧
      b.toList = [0x80, 0x83, 0x17] ++ List.replicate 28 0x7F ++ [0x8F]) ∧
    exec .enc s = .next { s with
      txf0 := a, txf1 := b, frValid := true
      respLog := s.respLog ++ 0x00 :: (a.toList ++ b.toList) }

/-- ENCF (R184): the same for the flat buffer, whose byte `y * 28 + x` is lit when non-zero; FB is neither read
nor written (R59, R86; decision D16). -/
def Obligations.EncfEncodesTheBuffer : Prop :=
  ∀ (d : List Byte) (s : State), d.length = 392 → ∃ a b : Frame,
    IsDeviceFrame 0x15 a ∧ IsDeviceFrame 0x17 b ∧
    (∀ (c r : Nat) (hc : c < 28), r < 7 →
      (a[3 + c]'(by show 3 + c < 32; omega)).getLsbD r = decide (d.getD (r * 28 + c) 0 ≠ 0) ∧
      (b[3 + c]'(by show 3 + c < 32; omega)).getLsbD r = decide (d.getD ((7 + r) * 28 + c) 0 ≠ 0)) ∧
    exec (.encf d) s = .next { s with
      txf0 := a, txf1 := b, frValid := true
      respLog := s.respLog ++ 0x00 :: (a.toList ++ b.toList) }

/-- The two input shapes agree (R180, R184): a flat buffer whose byte `y * 28 + x` is non-zero exactly where
the cell is lit leaves the same state, frames and response as ENC. -/
def Obligations.EncAndEncfAgree : Prop :=
  ∀ (s : State) (d : List Byte), d.length = 392 →
    (∀ x y, x < 28 → y < 14 → (d.getD (y * 28 + x) 0 ≠ 0 ↔ cell s.fb x y = true)) →
    ∃ t, exec .enc s = .next t ∧ exec (.encf d) s = .next t

/-- The reference frames (R96): an entirely unlit surface encodes to the `all_dark` pair, an entirely lit one to
the `all_bright` pair. -/
def Obligations.ReferenceFrames : Prop :=
  ∀ s : State,
    (AllCells false s.fb → ∃ t, exec .enc s = .next t ∧
      t.txf0.toList = [0x80, 0x83, 0x15] ++ List.replicate 28 0x00 ++ [0x8F] ∧
      t.txf1.toList = [0x80, 0x83, 0x17] ++ List.replicate 28 0x00 ++ [0x8F]) ∧
    (AllCells true s.fb → ∃ t, exec .enc s = .next t ∧
      t.txf0.toList = [0x80, 0x83, 0x15] ++ List.replicate 28 0x7F ++ [0x8F] ∧
      t.txf1.toList = [0x80, 0x83, 0x17] ++ List.replicate 28 0x7F ++ [0x8F])

/-- The encoder loses nothing: two surfaces with the same frame pair are the same surface (R181). -/
def Obligations.EncodeIsInjective : Prop :=
  ∀ g h : Grid, encodeTop g = encodeTop h → encodeBottom g = encodeBottom h → g = h

/-- SEND with no frame (R202, R26): `[06]`, nothing offered to the sink, nothing else changed. -/
def Obligations.SendWithoutFrameAnswersNoFrame : Prop :=
  ∀ s : State, s.frValid = false →
    exec .send s = .next { s with respLog := s.respLog ++ [0x06] }

/-- SEND with a sink that accepts both frames (R202): TXLOG gains the 64 bytes, top frame first, `[00]` is
answered, and FB, the frame registers, FR_VALID and the session stay; what the sink answered is used up
(log 8). -/
def Obligations.SendTransmitsTopThenBottom : Prop :=
  ∀ s : State, s.frValid = true → sinkCount s 32 = 32 → sinkCount (sinkAnswered s) 32 = 32 →
    exec .send s = .next { s with
      txLog := s.txLog ++ s.txf0.toList ++ s.txf1.toList, respLog := s.respLog ++ [0x00]
      sinkAnswers := (sinkAnswered (sinkAnswered s)).sinkAnswers
      drawn := (sinkAnswered (sinkAnswered s)).drawn }

/-- SEND with a short write (R201, R202): the accepted beginning joins TXLOG and the frame's index is answered;
after a short top frame the bottom frame is not offered; nothing else changes, so SEND can be issued again
(decisions D17, D18, D35). The count is the environment's, any value up to 32. -/
def Obligations.SendReportsTheShortFrame : Prop :=
  ∀ s : State, s.frValid = true →
    (sinkCount s 32 < 32 → exec .send s = .next { s with
        txLog := s.txLog ++ s.txf0.toList.take (sinkCount s 32), respLog := s.respLog ++ [0x03, 0]
        sinkAnswers := (sinkAnswered s).sinkAnswers, drawn := (sinkAnswered s).drawn }) ∧
    (sinkCount s 32 = 32 → sinkCount (sinkAnswered s) 32 < 32 → exec .send s = .next { s with
        txLog := s.txLog ++ s.txf0.toList ++ s.txf1.toList.take (sinkCount (sinkAnswered s) 32)
        respLog := s.respLog ++ [0x03, 1]
        sinkAnswers := (sinkAnswered (sinkAnswered s)).sinkAnswers
        drawn := (sinkAnswered (sinkAnswered s)).drawn })
end

