-- ==== Sys2Proof/Laws/Decode.lean ====
section
/-! SUPPORT. What the parts of the decoder read, and that they are the encoder's parts (30_encoding.md). -/

namespace Sys2Proof

/-- The opcode map read backwards (R90). -/
@[simp] theorem mnemonicOf_opcodeOf (m : Mnemonic) : mnemonicOf (opcodeOf m) = some m := by
  cases m <;> rfl

/-- An opcode that selects an operation is that operation's opcode (R90). -/
theorem opcodeOf_of_mnemonicOf {op : Byte} {m : Mnemonic} (h : mnemonicOf op = some m) :
    op = opcodeOf m := by
  apply BitVec.eq_of_toNat_eq
  revert h
  unfold mnemonicOf
  split <;> rintro h <;> first | (cases h; assumption) | cases h

/-- A string operand is read whole, up to its terminator (R84). -/
theorem takeString_append {str : List Byte} (h : noNul str = true) (rest : List Byte) :
    takeString (str ++ 0 :: rest) = some (str, rest) := by
  induction str with
  | nil => simp [takeString]
  | cons c cs ih =>
    simp only [noNul, List.all_cons, Bool.and_eq_true, bne_iff_ne] at h
    rw [List.cons_append, takeString, if_neg h.1, ih h.2]; rfl

/-- What a string operand read is: no terminator in it, one after it (R84). -/
theorem takeString_eq_some {bs : List Byte} {str rest : List Byte}
    (h : takeString bs = some (str, rest)) : noNul str = true ∧ bs = str ++ 0 :: rest := by
  induction bs generalizing str with
  | nil => simp [takeString] at h
  | cons c cs ih =>
    rw [takeString] at h
    split at h
    · next hc => simp at h; obtain ⟨rfl, rfl⟩ := h; simp [hc, noNul]
    · next hc =>
      simp only [Option.map_eq_some_iff, Prod.mk.injEq] at h
      obtain ⟨⟨str', rest'⟩, ht, rfl, rfl⟩ := h
      obtain ⟨hn, rfl⟩ := ih ht
      refine ⟨?_, rfl⟩
      simp only [noNul, List.all_cons, Bool.and_eq_true, bne_iff_ne]
      exact ⟨hc, hn⟩

/-- Without a terminator there is no string operand yet (R93). -/
theorem takeString_noNul {bs : List Byte} (h : noNul bs = true) : takeString bs = none := by
  induction bs with
  | nil => rfl
  | cons c cs ih =>
    simp only [noNul, List.all_cons, Bool.and_eq_true, bne_iff_ne] at h
    rw [takeString, if_neg h.1, ih h.2]; rfl

/-- Data bytes are read whole (R85, R86). -/
theorem takeBytes_append (d rest : List Byte) : takeBytes d.length (d ++ rest) = some (d, rest) := by
  induction d with
  | nil => rfl
  | cons b bs ih => simp [takeBytes, ih]

/-- What data bytes read are: exactly as many as asked for (R85, R86). -/
theorem takeBytes_eq_some {n : Nat} {bs d rest : List Byte} (h : takeBytes n bs = some (d, rest)) :
    d.length = n ∧ bs = d ++ rest := by
  induction n generalizing bs d with
  | zero => simp [takeBytes] at h; obtain ⟨rfl, rfl⟩ := h; simp
  | succ n ih =>
    cases bs with
    | nil => simp [takeBytes] at h
    | cons b bs =>
      simp only [takeBytes, Option.map_eq_some_iff, Prod.mk.injEq] at h
      obtain ⟨⟨d', r'⟩, ht, rfl, rfl⟩ := h
      obtain ⟨hl, rfl⟩ := ih ht
      simp [hl]

/-- Fewer bytes than asked for are no data operand yet (R93). -/
theorem takeBytes_short {n : Nat} {bs : List Byte} (h : bs.length < n) : takeBytes n bs = none := by
  induction n generalizing bs with
  | zero => simp at h
  | succ n ih =>
    cases bs with
    | nil => rfl
    | cons b bs => simp [takeBytes, ih (bs := bs) (by simpa using h)]

/-- The interval is `ivl_lo + 256 * ivl_hi` (R87). -/
theorem assembleInterval_toNat (lo hi : Byte) :
    (assembleInterval lo hi).toNat = lo.toNat + 256 * hi.toNat := by
  show (hi ++ lo).toNat = _
  rw [BitVec.toNat_append, ← Nat.shiftLeft_add_eq_or_of_lt lo.isLt, Nat.shiftLeft_eq]
  omega

theorem intervalLo_toNat (ivl : Word16) : (intervalLo ivl).toNat = ivl.toNat % 256 := by
  simp [intervalLo]

theorem intervalHi_toNat (ivl : Word16) : (intervalHi ivl).toNat = ivl.toNat / 256 := by
  have := ivl.isLt
  simp [intervalHi, Nat.shiftRight_eq_div_pow]; omega

@[simp] theorem assembleInterval_split (ivl : Word16) :
    assembleInterval (intervalLo ivl) (intervalHi ivl) = ivl := by
  apply BitVec.eq_of_toNat_eq
  rw [assembleInterval_toNat, intervalLo_toNat, intervalHi_toNat]; omega

@[simp] theorem intervalLo_assemble (lo hi : Byte) : intervalLo (assembleInterval lo hi) = lo := by
  have := lo.isLt
  apply BitVec.eq_of_toNat_eq
  rw [intervalLo_toNat, assembleInterval_toNat]; omega

@[simp] theorem intervalHi_assemble (lo hi : Byte) : intervalHi (assembleInterval lo hi) = hi := by
  have := lo.isLt
  apply BitVec.eq_of_toNat_eq
  rw [intervalHi_toNat, assembleInterval_toNat]; omega

end Sys2Proof
end

