-- ==== Sys2Proof/Laws/Grid.lean ====
section
/-! SUPPORT. The cells of a grid after each primitive (20_memory.md R54, R55). -/

namespace Sys2Proof.Machine

open Sys2Proof

theorem cell_in (g : Grid) {x y : Nat} (hx : x < WIDTH) (hy : y < HEIGHT) :
    cell g x y = (g[y]'hy)[x]'hx := by
  unfold cell; rw [dif_pos ⟨hx, hy⟩]

/-- Outside the surface there is no lit cell. -/
theorem cell_out (g : Grid) {x y : Nat} (h : ¬(x < WIDTH ∧ y < HEIGHT)) : cell g x y = false := by
  unfold cell; rw [dif_neg h]

/-- Two grids with the same cells are the same grid. -/
theorem grid_ext {g h : Grid} (hc : ∀ x y, x < 28 → y < 14 → cell g x y = cell h x y) : g = h := by
  refine Vector.ext fun y hy => Vector.ext fun x hx => ?_
  have := hc x y hx hy
  rwa [cell_in g hx hy, cell_in h hx hy] at this

/-- A cell write sets the named in-range cell and no other (R54). -/
theorem cell_fbWrite (g : Grid) (x y : Nat) (v : Bool) (px py : Nat) :
    cell (fbWrite g x y v) px py =
      if px = x ∧ py = y ∧ x < 28 ∧ y < 14 then v else cell g px py := by
  unfold fbWrite
  by_cases h : x < WIDTH ∧ y < HEIGHT
  · rw [dif_pos h]
    by_cases hp : px < WIDTH ∧ py < HEIGHT
    · rw [cell_in _ hp.1 hp.2, cell_in g hp.1 hp.2]
      by_cases hy : py = y
      · subst hy
        by_cases hx : px = x
        · subst hx; simp [hp.1, hp.2]
        · simp [hx, Ne.symm hx]
      · simp [hy, Ne.symm hy]
    · rw [cell_out _ hp, cell_out _ hp, if_neg]
      rintro ⟨rfl, rfl, hx, hy⟩; exact hp ⟨hx, hy⟩
  · rw [dif_neg h, if_neg]
    rintro ⟨-, -, hx, hy⟩; exact h ⟨hx, hy⟩

@[simp] theorem cell_fbZero (x y : Nat) : cell fbZero x y = false := by
  by_cases h : x < WIDTH ∧ y < HEIGHT
  · rw [cell_in _ h.1 h.2]; simp [fbZero]
  · exact cell_out _ h

theorem cell_gridOf (b : Nat → Nat → Bool) {x y : Nat} (hx : x < 28) (hy : y < 14) :
    cell (gridOf b) x y = b x y := by
  rw [cell_in _ hx hy]; simp [gridOf]

/-- The cells of a flat buffer's grid (R59). -/
theorem cell_flatGrid (d : List Byte) {x y : Nat} (hx : x < 28) (hy : y < 14) :
    cell (flatGrid d) x y = lit (d.getD (y * 28 + x) 0) := cell_gridOf _ hx hy

end Sys2Proof.Machine
end

