-- ==== Sys2Proof/Laws/Glyph.lean ====
section
/-! SUPPORT. What drawing a glyph does to each cell (40_glyph_rasterizer.md R112), and when it fits. -/

namespace Sys2Proof.Machine

open Sys2Proof

/-- A fold whose every pass can only light a cell lights it exactly if some pass does. -/
theorem cell_foldl_or {α : Type} (F : Grid → α → Grid) (p : α → Bool) (px py : Nat)
    (hF : ∀ g a, cell (F g a) px py = (cell g px py || p a)) (l : List α) (g : Grid) :
    cell (l.foldl F g) px py = (cell g px py || l.any p) := by
  induction l generalizing g with
  | nil => simp
  | cons a l ih => rw [List.foldl_cons, ih, hF, List.any_cons, Bool.or_assoc]

/-- A column byte drawn at column `x` lights the rows of its window, clipped at the bottom. -/
theorem cell_drawColumn (font : Font) (b : Byte) (x y : Nat) (g : Grid) {px py : Nat}
    (hx : px < 28) (hy : py < 14) :
    cell (drawColumn font b x y g) px py =
      (cell g px py ||
        (decide (px = x) && decide (y ≤ py ∧ py < y + font.fontHeight) &&
          b.getLsbD (font.startOffset + (py - y)))) := by
  unfold drawColumn
  rw [cell_foldl_or _
    (fun r => b.getLsbD (font.startOffset + r) && decide (px = x ∧ py = y + r)) px py]
  · congr 1
    rw [Bool.eq_iff_iff]
    simp only [List.any_eq_true, List.mem_range, Bool.and_eq_true, decide_eq_true_eq]
    constructor
    · rintro ⟨r, hr, hb, rfl, rfl⟩
      exact ⟨⟨rfl, by omega, by omega⟩, by rwa [Nat.add_sub_cancel_left]⟩
    · rintro ⟨⟨rfl, h1, h2⟩, hb⟩
      exact ⟨py - y, by omega, hb, rfl, by omega⟩
  · intro g r
    split
    · next h =>
      rw [cell_fbWrite, h]
      by_cases hp : px = x ∧ py = y + r
      · obtain ⟨rfl, rfl⟩ := hp; simp [hx, hy]
      · rw [if_neg (fun hh => hp ⟨hh.1, hh.2.1⟩)]; simp [hp]
    · next h => simp [Bool.eq_false_iff.mpr h]

/-- Drawing a glyph lights exactly the cells it inks: lit cells stay lit, rows past the bottom are
dropped (R112). -/
theorem cell_drawColumns (font : Font) (code : Byte) (x y : Nat) (g : Grid) {px py : Nat}
    (hx : px < 28) (hy : py < 14) :
    cell (drawColumns font code x y g) px py = (cell g px py || inks font code x y px py) := by
  unfold drawColumns
  rw [cell_foldl_or _ _ px py (fun g k => cell_drawColumn font
    (glyphCol font code ((measureGlyph font code).leftTrim + k)) (x + k) y g hx hy)]
  congr 1
  rw [Bool.eq_iff_iff]
  simp only [inks, List.any_eq_true, List.mem_range, Bool.and_eq_true, decide_eq_true_eq]
  constructor
  · rintro ⟨k, hk, ⟨rfl, h⟩, hb⟩
    exact ⟨⟨⟨by omega, by omega⟩, h⟩, by rwa [Nat.add_sub_cancel_left]⟩
  · rintro ⟨⟨⟨h1, h2⟩, h⟩, hb⟩
    exact ⟨px - x, by omega, ⟨by omega, h⟩, hb⟩

/-- The fit test and its negation are the two sides of one comparison. -/
theorem misfit_eq_not_fits (font : Font) (code : Byte) (x : Nat) :
    misfit font code x = !fits font x code := by
  rw [Bool.eq_iff_iff]; simp [misfit, fits]

/-- `DrawGlyph` of a character that fits. -/
theorem drawGlyph_of_fits {font : Font} {code : Byte} {x : Nat} (y : Nat) (g : Grid)
    (h : fits font x code = true) :
    drawGlyph font code x y g =
      some ((measureGlyph font code).visibleWidth, drawColumns font code x y g) := by
  simp [drawGlyph, misfit_eq_not_fits, h]

/-- `DrawGlyph` of a character that does not fit is OOB. -/
theorem drawGlyph_of_misfit {font : Font} {code : Byte} {x : Nat} (y : Nat) (g : Grid)
    (h : fits font x code = false) : drawGlyph font code x y g = none := by
  simp [drawGlyph, misfit_eq_not_fits, h]

/-- `Measure`, said once: no column is inked, or the first and the last inked column bound the extent
(R111). -/
theorem measureGlyph_cases (font : Font) (code : Byte) :
    ((∀ c < font.fontWidth, glyphCol font code c = 0) ∧
      measureGlyph font code = { leftTrim := 0, rightTrim := font.fontWidth - 1, visibleWidth := 1 }) ∨
    ∃ a b, a ≤ b ∧ b < font.fontWidth ∧ glyphCol font code a ≠ 0 ∧ glyphCol font code b ≠ 0 ∧
      (∀ c < font.fontWidth, glyphCol font code c ≠ 0 → a ≤ c ∧ c ≤ b) ∧
      measureGlyph font code =
        { leftTrim := a, rightTrim := font.fontWidth - 1 - b, visibleWidth := b - a + 1 } := by
  have hmem : ∀ c, c ∈ inkColumns font code ↔ c < font.fontWidth ∧ glyphCol font code c ≠ 0 := by
    intro c; simp [inkColumns]
  have hsort : (inkColumns font code).Pairwise (· < ·) :=
    List.Pairwise.filter _ List.pairwise_lt_range
  cases hl : inkColumns font code with
  | nil =>
    refine .inl ⟨fun c hc => ?_, by simp [measureGlyph, hl, BLANK_VW]⟩
    by_contra hn
    have := (hmem c).2 ⟨hc, hn⟩
    rw [hl] at this; cases this
  | cons a l =>
    rw [hl] at hmem hsort
    obtain ⟨ys, b, hb⟩ := List.eq_nil_or_concat (a :: l) |>.resolve_left (by simp)
    rw [List.concat_eq_append] at hb
    have hlast : (a :: l).getLast? = some b := by rw [hb]; simp
    have hle : ∀ c ∈ a :: l, a ≤ c ∧ c ≤ b := by
      intro c hc
      constructor
      · rcases List.mem_cons.1 hc with rfl | h
        · exact le_rfl
        · exact (List.rel_of_pairwise_cons hsort h).le
      · rw [hb] at hc hsort
        rcases List.mem_append.1 hc with h | h
        · exact ((List.pairwise_append.1 hsort).2.2 c h b (by simp)).le
        · simp at h; omega
    have hbm : b ∈ a :: l := by rw [hb]; simp
    refine .inr ⟨a, b, (hle b hbm).1, ((hmem b).1 hbm).1, ((hmem a).1 (by simp)).2,
      ((hmem b).1 hbm).2, fun c h1 h2 => hle c ((hmem c).2 ⟨h1, h2⟩), ?_⟩
    simp only [measureGlyph, hl, hlast, List.head?_cons]

end Sys2Proof.Machine
end

