-- ==== Sys2Proof/Laws/Draw.lean ====
section
/-! SUPPORT. What drawing a string and a bitmap does to each cell (41_framebuffer.md R135, R136). -/

namespace Sys2Proof.Machine

open Sys2Proof

variable (font : Font) (wrap : Bool) (x : Nat)

/-- One round of R135: the first character goes where `placements` puts it, or the string ends, in the
fault exactly with wrap. The cursor is the start column or a column a character was drawn before. -/
theorem drawString_cons (c : Byte) (cs : List Byte) (cx cy i : Nat) (g : Grid) :
    drawString font wrap x (c :: cs) cx cy i g =
      if fits font cx c then
        drawString font wrap x cs (cx + (measureGlyph font c).visibleWidth + 1) cy (i + 1)
          (drawColumns font c cx cy g)
      else if wrap && fits font x c then
        drawString font wrap x cs (x + (measureGlyph font c).visibleWidth + 1)
          (cy + font.fontHeight + 1) (i + 1) (drawColumns font c x (cy + font.fontHeight + 1) g)
      else { grid := g, count := i, noProgress := wrap } := by
  cases hf : fits font cx c with
  | true => rw [drawString, drawGlyph_of_fits cy g hf]; simp [GLYPH_GAP]
  | false =>
    rw [drawString, drawGlyph_of_misfit cy g hf]
    cases wrap with
    | false => simp
    | true =>
      by_cases hcx : cx = x
      · subst hcx; simp [hf]
      · cases hx : fits font x c with
        | true => simp [hcx, drawGlyph_of_fits _ g hx, GLYPH_GAP, LINE_GAP]
        | false => simp [hcx, drawGlyph_of_misfit _ g hx]

/-- Drawing a string lights exactly the cells its placed characters ink. -/
theorem cell_drawString (str : List Byte) (cx cy i : Nat) (g : Grid) {px py : Nat}
    (hx : px < 28) (hy : py < 14) :
    cell (drawString font wrap x str cx cy i g).grid px py =
      (cell g px py || inkedBy font (placements font wrap x str cx cy) px py) := by
  induction str generalizing cx cy i g with
  | nil => simp [drawString, placements, inkedBy]
  | cons c cs ih =>
    rw [drawString_cons, placements]
    split
    · rw [ih, cell_drawColumns font c cx cy g hx hy]; simp [inkedBy, Bool.or_assoc]
    · split
      · rw [ih, cell_drawColumns font c x _ g hx hy]; simp [inkedBy, Bool.or_assoc]
      · simp [inkedBy]

/-- The count is the number of placed characters. -/
theorem count_drawString (str : List Byte) (cx cy i : Nat) (g : Grid) :
    (drawString font wrap x str cx cy i g).count =
      i + (placements font wrap x str cx cy).length := by
  induction str generalizing cx cy i g with
  | nil => simp [drawString, placements]
  | cons c cs ih =>
    rw [drawString_cons, placements]
    split
    · rw [ih, List.length_cons]; omega
    · split
      · rw [ih, List.length_cons]; omega
      · simp

/-- The fault: with wrap, some character was not placed. -/
theorem noProgress_drawString (str : List Byte) (cx cy i : Nat) (g : Grid) :
    (drawString font wrap x str cx cy i g).noProgress =
      (wrap && decide ((placements font wrap x str cx cy).length < str.length)) := by
  induction str generalizing cx cy i g with
  | nil => simp [drawString, placements]
  | cons c cs ih =>
    rw [drawString_cons, placements]
    split
    · rw [ih]; simp
    · split
      · rw [ih]; simp
      · simp

/-- A character fits at a column left of one where it fits. -/
theorem fits_of_le {a b : Nat} {c : Byte} (hab : a ≤ b) (h : fits font b c = true) :
    fits font a c = true := by
  simp only [fits, decide_eq_true_eq] at h ⊢; omega

/-- With wrap, from a cursor at or right of the start column, the characters placed are those before
the first that does not fit at the start column. -/
theorem placements_wrap_length (str : List Byte) {cx : Nat} (cy : Nat) (hcx : x ≤ cx) :
    (placements font true x str cx cy).length = (str.takeWhile (fits font x)).length := by
  induction str generalizing cx cy with
  | nil => simp [placements]
  | cons c cs ih =>
    rw [placements, List.takeWhile_cons]
    cases hx : fits font x c with
    | true =>
      split
      · simp [ih cy (cx := cx + (measureGlyph font c).visibleWidth + 1) (by omega)]
      · simp [ih _ (cx := x + (measureGlyph font c).visibleWidth + 1) (by omega)]
    | false =>
      have : fits font cx c = false := by
        cases h : fits font cx c with
        | false => rfl
        | true => rw [fits_of_le font hcx h] at hx; cases hx
      simp [this]

/-- No more characters are placed than the string has. -/
theorem placements_length_le (str : List Byte) (cx cy : Nat) :
    (placements font wrap x str cx cy).length ≤ str.length := by
  induction str generalizing cx cy with
  | nil => simp [placements]
  | cons c cs ih =>
    rw [placements]
    split
    · simp [ih]
    · split
      · simp [ih]
      · simp

section Blit

/-- A loop of which one pass sets a cell and no other touches it sets it if that pass is run. -/
theorem cell_foldl_set (F : Grid → Nat → Grid) (px py k : Nat) (v : Bool) (n : Nat) (g : Grid)
    (hit : ∀ g, cell (F g k) px py = v) (miss : ∀ g j, j ≠ k → cell (F g j) px py = cell g px py) :
    cell ((List.range n).foldl F g) px py = if k < n then v else cell g px py := by
  induction n with
  | zero => simp
  | succ n ih =>
    rw [List.range_succ, List.foldl_append, List.foldl_cons, List.foldl_nil]
    by_cases hk : n = k
    · subst hk; rw [hit]; simp
    · rw [miss _ _ hk, ih]
      by_cases h : k < n
      · rw [if_pos h, if_pos (by omega)]
      · rw [if_neg h, if_neg (by omega)]

/-- A loop no pass of which touches a cell leaves it. -/
theorem cell_foldl_miss {α : Type} (F : Grid → α → Grid) (px py : Nat)
    (miss : ∀ g j, cell (F g j) px py = cell g px py) (l : List α) (g : Grid) :
    cell (l.foldl F g) px py = cell g px py := by
  induction l generalizing g with
  | nil => rfl
  | cons a l ih => rw [List.foldl_cons, ih, miss]

variable (w y : Nat) (inv : Bool) (data : List Byte)

/-- One row of a blit. -/
theorem cell_blitRow (j : Nat) (g : Grid) {px py : Nat} (hx : px < 28) (hy : py < 14) :
    cell ((List.range w).foldl
      (fun g i => fbWrite g (x + i) (y + j) (bitmapBit w data i j != inv)) g) px py =
      if (x ≤ px ∧ px < x + w) ∧ py = y + j then bitmapBit w data (px - x) j != inv
      else cell g px py := by
  by_cases h1 : x ≤ px ∧ py = y + j
  · rw [cell_foldl_set _ px py (px - x) (bitmapBit w data (px - x) j != inv)]
    · by_cases h2 : px - x < w
      · rw [if_pos h2, if_pos ⟨⟨by omega, by omega⟩, by omega⟩]
      · rw [if_neg h2, if_neg (by omega)]
    · intro g; rw [cell_fbWrite, if_pos (by omega)]
    · intro g i hi; rw [cell_fbWrite, if_neg (by omega)]
  · rw [if_neg (by omega), cell_foldl_miss]
    intro g i; rw [cell_fbWrite, if_neg (by omega)]

/-- A blit overwrites the covered in-range cells and no other (R136). -/
theorem cell_blit (h : Nat) (g : Grid) {px py : Nat} (hx : px < 28) (hy : py < 14) :
    cell (blit w h x y inv data g) px py =
      if (x ≤ px ∧ px < x + w) ∧ (y ≤ py ∧ py < y + h) then
        bitmapBit w data (px - x) (py - y) != inv
      else cell g px py := by
  unfold blit
  by_cases h1 : (x ≤ px ∧ px < x + w) ∧ y ≤ py
  · rw [cell_foldl_set _ px py (py - y) (bitmapBit w data (px - x) (py - y) != inv)]
    · by_cases h2 : py - y < h
      · rw [if_pos h2, if_pos (by omega)]
      · rw [if_neg h2, if_neg (by omega)]
    · intro g; rw [cell_blitRow x w y inv data _ g hx hy, if_pos (by omega)]
    · intro g j hj; rw [cell_blitRow x w y inv data _ g hx hy, if_neg (by omega)]
  · rw [if_neg (by omega), cell_foldl_miss]
    intro g j; rw [cell_blitRow x w y inv data _ g hx hy, if_neg (by omega)]

end Blit

end Sys2Proof.Machine
end

