-- ==== Sys2Proof/Laws/Encoder.lean ====
section
/-! SUPPORT. The display buffers the encoder's walk leaves, bit by bit, and the bytes of a device frame
(43_frame_encoder.md R181, 30_encoding.md R95). -/

namespace Sys2Proof.Machine

open Sys2Proof

/-- Setting bit `b` of column `x` sets that bit and no other. -/
theorem getLsbD_setBit (d : Display) (x b : Nat) {c r : Nat} (hc : c < WIDTH) (hr : r < 8) :
    ((setBit d x b)[c]'hc).getLsbD r = ((d[c]'hc).getLsbD r || decide (c = x ∧ r = b)) := by
  unfold setBit
  by_cases hx : x < WIDTH
  · rw [dif_pos hx]
    by_cases hcx : c = x
    · subst hcx
      simp only [Vector.getElem_set_self, BitVec.getLsbD_or, BitVec.getLsbD_shiftLeft, hr,
        BitVec.getLsbD_one, decide_true, Bool.true_and, true_and]
      congr 1
      rw [Bool.eq_iff_iff]
      simp only [Bool.and_eq_true, Bool.not_eq_true', decide_eq_false_iff_not, decide_eq_true_eq]
      omega
    · simp [hcx, Ne.symm hcx]
  · rw [dif_neg hx]
    have : c ≠ x := by rintro rfl; exact hx hc
    simp [this]

/-- A fold whose every pass can only set a bit sets it exactly if some pass does. -/
theorem foldl_or {α β : Type} (F : β → α → β) (f : β → Bool) (p : α → Bool)
    (hF : ∀ d a, f (F d a) = (f d || p a)) (l : List α) (d : β) :
    f (l.foldl F d) = (f d || l.any p) := by
  induction l generalizing d with
  | nil => simp
  | cons a l ih => rw [List.foldl_cons, ih, hF, List.any_cons, Bool.or_assoc]

/-- A lit cell sets its bit in the buffer of its half. -/
theorem getLsbD_lightCell (d : Display × Display) (x y : Nat) {c r : Nat} (hc : c < WIDTH)
    (hr : r < 8) :
    ((lightCell d x y).1[c]'hc).getLsbD r =
        ((d.1[c]'hc).getLsbD r || decide (y < 7 ∧ c = x ∧ r = y % 7)) ∧
      ((lightCell d x y).2[c]'hc).getLsbD r =
        ((d.2[c]'hc).getLsbD r || decide (7 ≤ y ∧ c = x ∧ r = y % 7)) := by
  unfold lightCell
  by_cases hy : y < 7
  · rw [if_pos hy]
    refine ⟨by rw [getLsbD_setBit _ _ _ hc hr]; simp [hy], ?_⟩
    simp [Nat.not_le.mpr hy]
  · rw [if_neg hy]
    refine ⟨by simp [hy], ?_⟩
    rw [getLsbD_setBit _ _ _ hc hr]; simp [Nat.le_of_not_lt hy]

/-- The walk as a fold, read through one bit of one buffer. -/
theorem bit_displays (g : Grid) (f : Display × Display → Bool) (q : Nat → Nat → Bool)
    (h0 : f (Vector.replicate WIDTH 0, Vector.replicate WIDTH 0) = false)
    (hf : ∀ d x y, f (lightCell d x y) = (f d || q x y)) :
    f (displays g) = (List.range 14).any fun y => (List.range 28).any fun x => cell g x y && q x y := by
  unfold displays
  rw [foldl_or _ f (fun y => (List.range 28).any fun x => cell g x y && q x y), h0, Bool.false_or]
  intro d y
  rw [foldl_or _ f (fun x => cell g x y && q x y)]
  intro d x
  cases h : cell g x y <;> simp [hf]

/-- Bit `r` of `display1[c]` is row `r` of the top half; bit 7 is 0. -/
theorem getLsbD_displays_top (g : Grid) {c r : Nat} (hc : c < 28) (hr : r < 8) :
    ((displays g).1[c]'hc).getLsbD r = (decide (r < 7) && cell g c r) := by
  rw [bit_displays g (fun d => (d.1[c]'hc).getLsbD r) (fun x y => decide (y < 7 ∧ c = x ∧ r = y % 7))
    (by simp) (fun d x y => (getLsbD_lightCell d x y hc hr).1), Bool.eq_iff_iff]
  simp only [List.any_eq_true, List.mem_range, Bool.and_eq_true, decide_eq_true_eq]
  constructor
  · rintro ⟨y, hy, x, hx, hcell, h6, rfl, rfl⟩
    rw [Nat.mod_eq_of_lt (by omega)]; exact ⟨by omega, hcell⟩
  · rintro ⟨h7, hcell⟩
    exact ⟨r, by omega, c, hc, hcell, by omega, rfl, (Nat.mod_eq_of_lt h7).symm⟩

/-- Bit `r` of `display2[c]` is row `7 + r` of the surface; bit 7 is 0. -/
theorem getLsbD_displays_bottom (g : Grid) {c r : Nat} (hc : c < 28) (hr : r < 8) :
    ((displays g).2[c]'hc).getLsbD r = (decide (r < 7) && cell g c (7 + r)) := by
  rw [bit_displays g (fun d => (d.2[c]'hc).getLsbD r) (fun x y => decide (7 ≤ y ∧ c = x ∧ r = y % 7))
    (by simp) (fun d x y => (getLsbD_lightCell d x y hc hr).2), Bool.eq_iff_iff]
  simp only [List.any_eq_true, List.mem_range, Bool.and_eq_true, decide_eq_true_eq]
  constructor
  · rintro ⟨y, hy, x, hx, hcell, h6, rfl, rfl⟩
    have : 7 + y % 7 = y := by omega
    exact ⟨by omega, by rwa [this]⟩
  · rintro ⟨h7, hcell⟩
    exact ⟨7 + r, by omega, c, hc, hcell, by omega, rfl, by omega⟩

section DeviceFrame

variable (addr : Byte) (d : Display)

/-- The bytes of a device frame in order (R95). -/
theorem deviceFrame_toList :
    (deviceFrame addr d).toList = [0x80, 0x83, addr] ++ d.toList ++ [0x8F] := rfl

@[simp] theorem deviceFrame_length : (deviceFrame addr d).toList.length = 32 := by simp

theorem deviceFrame_get (i : Nat) (hi : i < 32) :
    (deviceFrame addr d)[i]'hi =
      ([0x80, 0x83, addr] ++ d.toList ++ [0x8F])[i]'(by simp [WIDTH]; omega) := rfl

theorem deviceFrame_column {c : Nat} (hc : c < 28) :
    (deviceFrame addr d)[3 + c]'(by show 3 + c < 32; omega) = d[c]'hc := by
  rw [deviceFrame_get addr d (3 + c) (by omega)]
  simp [hc, Nat.add_comm 3 c]

theorem deviceFrame_end : (deviceFrame addr d)[31] = 0x8F := by
  rw [deviceFrame_get addr d 31 (by omega)]
  simp

end DeviceFrame

/-- The encoder's frames have the layout of R95. -/
theorem encodeTop_isDeviceFrame (g : Grid) : IsDeviceFrame 0x15 (encodeTop g) := by
  refine ⟨rfl, rfl, rfl, deviceFrame_end _ _, fun c hc => ?_⟩
  rw [encodeTop, deviceFrame_column _ _ hc, getLsbD_displays_top g hc (by omega)]; simp

theorem encodeBottom_isDeviceFrame (g : Grid) : IsDeviceFrame 0x17 (encodeBottom g) := by
  refine ⟨rfl, rfl, rfl, deviceFrame_end _ _, fun c hc => ?_⟩
  rw [encodeBottom, deviceFrame_column _ _ hc, getLsbD_displays_bottom g hc (by omega)]; simp

end Sys2Proof.Machine
end

