-- ==== Sys2Proof/Laws/Operands.lean ====
section
/-! SUPPORT. The operand checks and conversions as propositions about numbers (30_encoding.md R83, R84, R89,
40_glyph_rasterizer.md R110). -/

namespace Sys2Proof.Machine

open Sys2Proof

theorem lit_eq_decide (b : Byte) : lit b = decide (b ≠ 0) := by simp [lit]; rfl

theorem lit_of_ne {b : Byte} (h : b ≠ 0) : lit b = true := by rw [lit_eq_decide]; exact decide_eq_true h

/-- A result below 256 is not truncated. -/
theorem resultByte_toNat {n : Nat} (h : n < 256) : (resultByte n).toNat = n := by
  simp [resultByte, Nat.mod_eq_of_lt h]

theorem badFont_of_le {cfg : Config} {f : Byte} (h : nfonts cfg ≤ f.toNat) : badFont cfg f = true := by
  simp [badFont, h]

theorem badFont_of_lt {cfg : Config} {f : Byte} (h : f.toNat < nfonts cfg) : badFont cfg f = false := by
  simp [badFont, h]

theorem textTooLong_of_lt {cfg : Config} {str : List Byte} (h : cfg.maxTextLen < str.length) :
    textTooLong cfg str = true := by
  simp [textTooLong, h]

theorem textTooLong_of_le {cfg : Config} {str : List Byte} (h : str.length ≤ cfg.maxTextLen) :
    textTooLong cfg str = false := by
  simp [textTooLong, h]

/-- Different statuses have different codes. -/
theorem statusCode_injective {a b : Status} (h : statusCode a = statusCode b) : a = b := by
  revert h; cases a <;> cases b <;> decide

end Sys2Proof.Machine
end

