-- ==== Sys2Proof/Laws/PerInstr.lean ====
section
/-! SUPPORT. Statements about each operation as syntax: the length of its command (30_encoding.md R92). -/

namespace Sys2Proof.Laws.CommandLength

open Sys2Proof

/-- The length R92 gives a command's format: Z 1, P 4, G 3, C 5, L 393; S, R and B from their operands. -/
def lengthOf : Instr → Nat
  | .init => 1
  | .clear => 1
  | .setpx _ _ _ => 4
  | .meas _ _ => 3
  | .dchr _ _ _ _ => 5
  | .dstr _ _ _ _ str => 5 + str.length + 1
  | .dbmp w h _ _ _ _ => 6 + w.toNat * h.toNat
  | .scrl _ _ _ _ _ str => 7 + str.length + 1
  | .tick => 1
  | .enc => 1
  | .encf _ => 393
  | .send => 1

/-- The command of a well-formed operation has the length of its format. -/
def Statement (i : Instr) : Prop := i.WellFormed → (encode i).length = lengthOf i

theorem init : Statement .init := fun _ => rfl
theorem clear : Statement .clear := fun _ => rfl
theorem setpx (x y v : Byte) : Statement (.setpx x y v) := fun _ => rfl
theorem meas (f ch : Byte) : Statement (.meas f ch) := fun _ => rfl
theorem dchr (f ch x y : Byte) : Statement (.dchr f ch x y) := fun _ => rfl

theorem dstr (f x y wrap : Byte) (str : List Byte) : Statement (.dstr f x y wrap str) := by
  intro _; simp [encode, operandBytes, lengthOf]; omega

theorem dbmp (w h x y inv : Byte) (data : List Byte) : Statement (.dbmp w h x y inv data) := by
  intro hw
  have : data.length = w.toNat * h.toNat := by simpa [Instr.WellFormed, Instr.wf] using hw
  simp [encode, operandBytes, lengthOf, this]; omega

theorem scrl (f x y : Byte) (ivl : Word16) (cb : Byte) (str : List Byte) :
    Statement (.scrl f x y ivl cb str) := by
  intro _; simp [encode, operandBytes, lengthOf]; omega

theorem tick : Statement .tick := fun _ => rfl
theorem enc : Statement .enc := fun _ => rfl

theorem encf (d : List Byte) : Statement (.encf d) := by
  intro hw
  have : d.length = 392 := by simpa [Instr.WellFormed, Instr.wf] using hw
  simp [encode, operandBytes, lengthOf, this]

theorem send : Statement .send := fun _ => rfl

end Sys2Proof.Laws.CommandLength
end

