-- ==== Sys2Proof/Laws/State.lean ====
section
/-! SUPPORT. The fields of the state after each shared operation, one lemma per field that is not left
to a record update, so that no proof unfolds the operations. -/

namespace Sys2Proof.Machine

open Sys2Proof

section Respond

variable (s : State) (st : Status) (rs : List Byte)

@[simp] theorem respond_cfg : (respond s st rs).cfg = s.cfg := rfl
@[simp] theorem respond_fb : (respond s st rs).fb = s.fb := rfl
@[simp] theorem respond_txf0 : (respond s st rs).txf0 = s.txf0 := rfl
@[simp] theorem respond_txf1 : (respond s st rs).txf1 = s.txf1 := rfl
@[simp] theorem respond_frValid : (respond s st rs).frValid = s.frValid := rfl
@[simp] theorem respond_session : (respond s st rs).session = s.session := rfl
@[simp] theorem respond_faulted : (respond s st rs).faulted = s.faulted := rfl
@[simp] theorem respond_txLog : (respond s st rs).txLog = s.txLog := rfl
@[simp] theorem respond_evLog : (respond s st rs).evLog = s.evLog := rfl
@[simp] theorem respond_rx : (respond s st rs).rx = s.rx := rfl
@[simp] theorem respond_respLog :
    (respond s st rs).respLog = s.respLog ++ statusCode st :: rs := rfl
@[simp] theorem respond_sinkAnswers : (respond s st rs).sinkAnswers = s.sinkAnswers := rfl
@[simp] theorem respond_turns : (respond s st rs).turns = s.turns := rfl
@[simp] theorem respond_drawn : (respond s st rs).drawn = s.drawn := rfl
@[simp] theorem respond_resetInput : (respond s st rs).resetInput = s.resetInput := rfl

end Respond

section EmitUpdate

variable (s : State) (tag : Byte)

@[simp] theorem emitUpdate_cfg : (emitUpdate s tag).cfg = s.cfg := rfl
@[simp] theorem emitUpdate_fb : (emitUpdate s tag).fb = s.fb := rfl
@[simp] theorem emitUpdate_txf0 : (emitUpdate s tag).txf0 = s.txf0 := rfl
@[simp] theorem emitUpdate_txf1 : (emitUpdate s tag).txf1 = s.txf1 := rfl
@[simp] theorem emitUpdate_frValid : (emitUpdate s tag).frValid = s.frValid := rfl
@[simp] theorem emitUpdate_session : (emitUpdate s tag).session = s.session := rfl
@[simp] theorem emitUpdate_faulted : (emitUpdate s tag).faulted = s.faulted := rfl
@[simp] theorem emitUpdate_txLog : (emitUpdate s tag).txLog = s.txLog := rfl
@[simp] theorem emitUpdate_evLog :
    (emitUpdate s tag).evLog = s.evLog ++ [{ tag := tag, grid := s.fb }] := rfl
@[simp] theorem emitUpdate_rx : (emitUpdate s tag).rx = s.rx := rfl
@[simp] theorem emitUpdate_respLog : (emitUpdate s tag).respLog = s.respLog := rfl
@[simp] theorem emitUpdate_sinkAnswers : (emitUpdate s tag).sinkAnswers = s.sinkAnswers := rfl
@[simp] theorem emitUpdate_turns : (emitUpdate s tag).turns = s.turns := rfl
@[simp] theorem emitUpdate_drawn : (emitUpdate s tag).drawn = s.drawn := rfl
@[simp] theorem emitUpdate_resetInput : (emitUpdate s tag).resetInput = s.resetInput := rfl

end EmitUpdate

section TakeFault

variable (s : State) (n : Nat)

@[simp] theorem takeFault_cfg : (takeFault s n).cfg = s.cfg := rfl
@[simp] theorem takeFault_fb : (takeFault s n).fb = s.fb := rfl
@[simp] theorem takeFault_txf0 : (takeFault s n).txf0 = s.txf0 := rfl
@[simp] theorem takeFault_txf1 : (takeFault s n).txf1 = s.txf1 := rfl
@[simp] theorem takeFault_frValid : (takeFault s n).frValid = s.frValid := rfl
@[simp] theorem takeFault_session : (takeFault s n).session = s.session := rfl
@[simp] theorem takeFault_faulted : (takeFault s n).faulted = true := rfl
@[simp] theorem takeFault_txLog : (takeFault s n).txLog = s.txLog := rfl
@[simp] theorem takeFault_evLog : (takeFault s n).evLog = s.evLog := rfl
@[simp] theorem takeFault_rx : (takeFault s n).rx = s.rx := rfl
@[simp] theorem takeFault_respLog :
    (takeFault s n).respLog = s.respLog ++ [statusCode .noProgress, resultByte n] := rfl
@[simp] theorem takeFault_sinkAnswers : (takeFault s n).sinkAnswers = s.sinkAnswers := rfl
@[simp] theorem takeFault_turns : (takeFault s n).turns = s.turns := rfl
@[simp] theorem takeFault_drawn : (takeFault s n).drawn = s.drawn := rfl
@[simp] theorem takeFault_resetInput : (takeFault s n).resetInput = s.resetInput := rfl

end TakeFault

section Sink

variable (s : State) (bytes : List Byte)

/-- The sink's answer touches only the environment's fields. -/
theorem sinkAnswered_eq :
    sinkAnswered s = { s with
      sinkAnswers := (sinkAnswered s).sinkAnswers, drawn := (sinkAnswered s).drawn } := by
  unfold sinkAnswered; split <;> rfl

@[simp] theorem sinkAnswered_cfg : (sinkAnswered s).cfg = s.cfg := by rw [sinkAnswered_eq]
@[simp] theorem sinkAnswered_fb : (sinkAnswered s).fb = s.fb := by rw [sinkAnswered_eq]
@[simp] theorem sinkAnswered_txf0 : (sinkAnswered s).txf0 = s.txf0 := by rw [sinkAnswered_eq]
@[simp] theorem sinkAnswered_txf1 : (sinkAnswered s).txf1 = s.txf1 := by rw [sinkAnswered_eq]
@[simp] theorem sinkAnswered_frValid : (sinkAnswered s).frValid = s.frValid := by
  rw [sinkAnswered_eq]
@[simp] theorem sinkAnswered_session : (sinkAnswered s).session = s.session := by
  rw [sinkAnswered_eq]
@[simp] theorem sinkAnswered_faulted : (sinkAnswered s).faulted = s.faulted := by
  rw [sinkAnswered_eq]
@[simp] theorem sinkAnswered_txLog : (sinkAnswered s).txLog = s.txLog := by rw [sinkAnswered_eq]
@[simp] theorem sinkAnswered_evLog : (sinkAnswered s).evLog = s.evLog := by rw [sinkAnswered_eq]
@[simp] theorem sinkAnswered_rx : (sinkAnswered s).rx = s.rx := by rw [sinkAnswered_eq]
@[simp] theorem sinkAnswered_respLog : (sinkAnswered s).respLog = s.respLog := by
  rw [sinkAnswered_eq]
@[simp] theorem sinkAnswered_turns : (sinkAnswered s).turns = s.turns := by rw [sinkAnswered_eq]
@[simp] theorem sinkAnswered_resetInput : (sinkAnswered s).resetInput = s.resetInput := by
  rw [sinkAnswered_eq]

@[simp] theorem sinkWrite_cfg : (sinkWrite s bytes).cfg = s.cfg := sinkAnswered_cfg s
@[simp] theorem sinkWrite_fb : (sinkWrite s bytes).fb = s.fb := sinkAnswered_fb s
@[simp] theorem sinkWrite_txf0 : (sinkWrite s bytes).txf0 = s.txf0 := sinkAnswered_txf0 s
@[simp] theorem sinkWrite_txf1 : (sinkWrite s bytes).txf1 = s.txf1 := sinkAnswered_txf1 s
@[simp] theorem sinkWrite_frValid : (sinkWrite s bytes).frValid = s.frValid :=
  sinkAnswered_frValid s
@[simp] theorem sinkWrite_session : (sinkWrite s bytes).session = s.session :=
  sinkAnswered_session s
@[simp] theorem sinkWrite_faulted : (sinkWrite s bytes).faulted = s.faulted :=
  sinkAnswered_faulted s
@[simp] theorem sinkWrite_txLog :
    (sinkWrite s bytes).txLog = s.txLog ++ bytes.take (sinkCount s bytes.length) := rfl
@[simp] theorem sinkWrite_evLog : (sinkWrite s bytes).evLog = s.evLog := sinkAnswered_evLog s
@[simp] theorem sinkWrite_rx : (sinkWrite s bytes).rx = s.rx := sinkAnswered_rx s
@[simp] theorem sinkWrite_respLog : (sinkWrite s bytes).respLog = s.respLog :=
  sinkAnswered_respLog s
@[simp] theorem sinkWrite_sinkAnswers :
    (sinkWrite s bytes).sinkAnswers = (sinkAnswered s).sinkAnswers := rfl
@[simp] theorem sinkWrite_turns : (sinkWrite s bytes).turns = s.turns := sinkAnswered_turns s
@[simp] theorem sinkWrite_drawn : (sinkWrite s bytes).drawn = (sinkAnswered s).drawn := rfl
@[simp] theorem sinkWrite_resetInput : (sinkWrite s bytes).resetInput = s.resetInput :=
  sinkAnswered_resetInput s

/-- The sink never takes more than it is offered (R201). -/
theorem sinkCount_le (n : Nat) : sinkCount s n ≤ n := by
  unfold sinkCount; split <;> exact Nat.min_le_right _ _

end Sink

section ResetEvent

variable (s : State)

@[simp] theorem resetEvent_cfg : (resetEvent s).cfg = s.cfg := rfl
@[simp] theorem resetEvent_frValid : (resetEvent s).frValid = false := rfl
@[simp] theorem resetEvent_session : (resetEvent s).session = none := rfl
@[simp] theorem resetEvent_faulted : (resetEvent s).faulted = false := rfl
@[simp] theorem resetEvent_txLog : (resetEvent s).txLog = [] := rfl
@[simp] theorem resetEvent_evLog : (resetEvent s).evLog = [] := rfl
@[simp] theorem resetEvent_rx : (resetEvent s).rx = s.rx := rfl
@[simp] theorem resetEvent_respLog : (resetEvent s).respLog = [] := rfl
@[simp] theorem resetEvent_sinkAnswers : (resetEvent s).sinkAnswers = s.sinkAnswers := rfl
@[simp] theorem resetEvent_turns : (resetEvent s).turns = s.turns := rfl
@[simp] theorem resetEvent_resetInput : (resetEvent s).resetInput = .released := rfl

end ResetEvent

end Sys2Proof.Machine
end

