-- ==== Sys2Proof/Laws/Step.lean ====
section
/-! SUPPORT. What a step can do, said once (20_memory.md R62, 42_scroll.md R165, 30_encoding.md R80), and
what no operation touches. -/

namespace Sys2Proof.Machine

open Sys2Proof

/-- Every operation answers a next state (60_exceptions.md R215). -/
theorem exec_next (i : Instr) (s : State) : ∃ t, exec i s = .next t := by
  cases i <;> exact ⟨_, rfl⟩

/-- The arbitration touches only the environment's fields. -/
theorem turnTaken_eq (s : State) :
    turnTaken s = { s with turns := (turnTaken s).turns, drawn := (turnTaken s).drawn } := by
  unfold turnTaken; split
  · rfl
  · split <;> rfl

section TurnTaken

variable (s : State)

@[simp] theorem turnTaken_cfg : (turnTaken s).cfg = s.cfg := by rw [turnTaken_eq]
@[simp] theorem turnTaken_fb : (turnTaken s).fb = s.fb := by rw [turnTaken_eq]
@[simp] theorem turnTaken_txf0 : (turnTaken s).txf0 = s.txf0 := by rw [turnTaken_eq]
@[simp] theorem turnTaken_txf1 : (turnTaken s).txf1 = s.txf1 := by rw [turnTaken_eq]
@[simp] theorem turnTaken_frValid : (turnTaken s).frValid = s.frValid := by rw [turnTaken_eq]
@[simp] theorem turnTaken_session : (turnTaken s).session = s.session := by rw [turnTaken_eq]
@[simp] theorem turnTaken_faulted : (turnTaken s).faulted = s.faulted := by rw [turnTaken_eq]
@[simp] theorem turnTaken_txLog : (turnTaken s).txLog = s.txLog := by rw [turnTaken_eq]
@[simp] theorem turnTaken_evLog : (turnTaken s).evLog = s.evLog := by rw [turnTaken_eq]
@[simp] theorem turnTaken_rx : (turnTaken s).rx = s.rx := by rw [turnTaken_eq]
@[simp] theorem turnTaken_respLog : (turnTaken s).respLog = s.respLog := by rw [turnTaken_eq]
@[simp] theorem turnTaken_sinkAnswers : (turnTaken s).sinkAnswers = s.sinkAnswers := by
  rw [turnTaken_eq]
@[simp] theorem turnTaken_resetInput : (turnTaken s).resetInput = s.resetInput := by
  rw [turnTaken_eq]

end TurnTaken

/-- The arbitration leaves an idle block as it is. -/
theorem turnTaken_idle {s : State} (h : s.session = none) : turnTaken s = s := by
  unfold turnTaken; rw [h]

/-- No tick comes while no session is active (R165). -/
theorem tickIsNext_idle {s : State} (h : s.session = none) : tickIsNext s = false := by
  unfold tickIsNext; rw [h]

/-- The tick agent's transition while a session is active. -/
theorem tickAgent_of_session {s : State} {ses : Session} (h : s.session = some ses) :
    tickAgent s = tickSession s ses := by
  unfold tickAgent; rw [h]

/-- A tick touches the session's index, FB and EVLOG only (R51, R164). -/
theorem tickSession_eq (s : State) (ses : Session) :
    tickSession s ses = { s with
      session := some (advanceSession ses)
      fb := scrollPicture s.cfg (advanceSession ses)
      evLog := s.evLog ++
        [{ tag := ses.scb, grid := scrollPicture s.cfg (advanceSession ses) }] } := rfl

/-- SEND's writes touch TXLOG, the response port and the environment's fields only (R202). -/
theorem sendFrames_eq (s : State) :
    sendFrames s = { s with
      txLog := (sendFrames s).txLog, respLog := (sendFrames s).respLog
      sinkAnswers := (sendFrames s).sinkAnswers, drawn := (sendFrames s).drawn } := by
  have key : ∀ (s : State) (bytes rs : List Byte) (st : Status),
      respond (sinkWrite s bytes) st rs = { s with
        txLog := (respond (sinkWrite s bytes) st rs).txLog
        respLog := (respond (sinkWrite s bytes) st rs).respLog
        sinkAnswers := (respond (sinkWrite s bytes) st rs).sinkAnswers
        drawn := (respond (sinkWrite s bytes) st rs).drawn } := by
    intro s bytes rs st
    unfold respond sinkWrite
    rw [sinkAnswered_eq]
  have bottom : ∀ s : State, sendBottom s = { s with
      txLog := (sendBottom s).txLog, respLog := (sendBottom s).respLog
      sinkAnswers := (sendBottom s).sinkAnswers, drawn := (sendBottom s).drawn } := by
    intro s; unfold sendBottom; split <;> exact key _ _ _ _
  unfold sendFrames
  split
  · exact key _ _ _ _
  · rw [bottom]
    unfold sinkWrite
    rw [sinkAnswered_eq]

/-- What a write leaves for the sink to answer next. -/
theorem sinkAnswered_sinkWrite (s : State) (bytes : List Byte) :
    sinkAnswered (sinkWrite s bytes) = { s with
      txLog := (sinkWrite s bytes).txLog
      sinkAnswers := (sinkAnswered (sinkAnswered s)).sinkAnswers
      drawn := (sinkAnswered (sinkAnswered s)).drawn } := by
  cases s with
  | mk _ _ _ _ _ _ _ _ _ _ _ answers _ _ _ => rcases answers with _ | ⟨_, _ | ⟨_, _⟩⟩ <;> rfl

/-- A whole accepted frame. -/
theorem take_frame (f : Frame) : f.toList.take 32 = f.toList := List.take_of_length_le (by simp)

/-- A write of one frame (R201). -/
theorem sinkWrite_frame (s : State) (f : Frame) :
    sinkWrite s f.toList = { s with
      txLog := s.txLog ++ f.toList.take (sinkCount s 32)
      sinkAnswers := (sinkAnswered s).sinkAnswers, drawn := (sinkAnswered s).drawn } := by
  unfold sinkWrite; rw [sinkAnswered_eq, f.length_toList]

/-- The second write of a pair, after a whole first one (R202). -/
theorem sinkWrite_pair {s : State} (h : sinkCount s 32 = 32) (f g : Frame) :
    sinkWrite (sinkWrite s f.toList) g.toList = { s with
      txLog := s.txLog ++ f.toList ++ g.toList.take (sinkCount (sinkAnswered s) 32)
      sinkAnswers := (sinkAnswered (sinkAnswered s)).sinkAnswers
      drawn := (sinkAnswered (sinkAnswered s)).drawn } := by
  have hc : sinkCount (sinkWrite s f.toList) 32 = sinkCount (sinkAnswered s) 32 := rfl
  rw [sinkWrite_frame (sinkWrite s f.toList) g, hc, sinkAnswered_sinkWrite, sinkWrite_frame, h, take_frame]

/-- Everything SEND can do with a valid frame pair (R202): a short top frame, a short bottom frame, or
both whole. -/
theorem sendFrames_cases (s : State) :
    (sinkCount s 32 < 32 ∧ sendFrames s = { s with
      txLog := s.txLog ++ s.txf0.toList.take (sinkCount s 32), respLog := s.respLog ++ [0x03, 0]
      sinkAnswers := (sinkAnswered s).sinkAnswers, drawn := (sinkAnswered s).drawn }) ∨
    (sinkCount s 32 = 32 ∧ sinkCount (sinkAnswered s) 32 < 32 ∧ sendFrames s = { s with
      txLog := s.txLog ++ s.txf0.toList ++ s.txf1.toList.take (sinkCount (sinkAnswered s) 32)
      respLog := s.respLog ++ [0x03, 1]
      sinkAnswers := (sinkAnswered (sinkAnswered s)).sinkAnswers
      drawn := (sinkAnswered (sinkAnswered s)).drawn }) ∨
    (sinkCount s 32 = 32 ∧ sinkCount (sinkAnswered s) 32 = 32 ∧ sendFrames s = { s with
      txLog := s.txLog ++ s.txf0.toList ++ s.txf1.toList, respLog := s.respLog ++ [0x00]
      sinkAnswers := (sinkAnswered (sinkAnswered s)).sinkAnswers
      drawn := (sinkAnswered (sinkAnswered s)).drawn }) := by
  unfold sendFrames
  by_cases h0 : sinkCount s 32 = 32
  · have hf : (sinkWrite s s.txf0.toList).txf1 = s.txf1 := sinkWrite_txf1 _ _
    have hc : sinkCount (sinkWrite s s.txf0.toList) 32 = sinkCount (sinkAnswered s) 32 := rfl
    rw [if_neg (not_not.mpr h0)]
    unfold sendBottom
    rw [hf, sinkWrite_pair h0, hc]
    by_cases h1 : sinkCount (sinkAnswered s) 32 = 32
    · rw [if_neg (not_not.mpr h1), h1, take_frame]
      exact .inr (.inr ⟨h0, rfl, rfl⟩)
    · rw [if_pos h1]
      exact .inr (.inl ⟨h0, lt_of_le_of_ne (sinkCount_le _ _) h1, rfl⟩)
  · rw [if_pos h0, sinkWrite_frame]
    exact .inl ⟨lt_of_le_of_ne (sinkCount_le _ _) h0, rfl⟩

/-- No operation touches the configuration, the command stream, the turns or the reset input. -/
theorem exec_frame {i : Instr} {s t : State} (h : exec i s = .next t) :
    t.cfg = s.cfg ∧ t.rx = s.rx ∧ t.turns = s.turns ∧ t.resetInput = s.resetInput := by
  cases i <;>
    simp only [exec, execInit, execClear, execSetpx, execMeas, execDchr, execDstr, execDbmp,
      execScrl, execTick, execEnc, execEncf, execSend, Host.Outcome.next.injEq] at h <;>
    subst h
  case dstr => unfold finishString; (repeat' split) <;> simp
  case send =>
    split
    · rw [sendFrames_eq]; simp
    · simp
  all_goals (repeat' split) <;> simp [tickSession_eq, respondFrames, storeFrames]

/-- What a reset finds differs from the state in the environment's choice of turn and the command read, so
everything the block holds is as it was. -/
theorem beforeReset_eq (s : State) :
    beforeReset s = { s with
      rx := (beforeReset s).rx, turns := (beforeReset s).turns, drawn := (beforeReset s).drawn } := by
  unfold beforeReset
  split
  · rfl
  · rfl
  · unfold operationStarted
    (repeat' split) <;> first | rfl | (rw [turnTaken_eq])

@[simp] theorem beforeReset_cfg (s : State) : (beforeReset s).cfg = s.cfg := by rw [beforeReset_eq]
@[simp] theorem beforeReset_sinkAnswers (s : State) :
    (beforeReset s).sinkAnswers = s.sinkAnswers := by rw [beforeReset_eq]

/-- A reset at a boundary finds the unread bytes as they were. -/
theorem beforeReset_atBoundary {s : State} (h : s.resetInput = .atBoundary) : beforeReset s = s := by
  unfold beforeReset; rw [h]

/-- A reset inside an operation finds the state that operation started from (R250). -/
theorem beforeReset_inOperation {s : State} (h : s.resetInput = .inOperation) :
    beforeReset s = operationStarted s := by
  unfold beforeReset; rw [h]

/-- A command the reset falls into has been read. -/
theorem operationStarted_rx {s : State} (hf : s.faulted = false) (ht : tickIsNext s = false) :
    (operationStarted s).rx = bytesAfterCommand s.rx := by
  unfold operationStarted; rw [hf, ht]; rfl

/-- A tick the reset falls into has read no command. -/
theorem operationStarted_rx_tick {s : State} (ht : tickIsNext s = true) : (operationStarted s).rx = s.rx := by
  unfold operationStarted; rw [ht]; split <;> simp

/-- Everything a step can do: reset, stop in the fault, tick, run a command, answer a reserved opcode,
or wait. -/
theorem step_cases (s : State) :
    (s.resetInput ≠ .released ∧ step s = .next (resetEvent (beforeReset s))) ∨
    (s.resetInput = .released ∧ s.faulted = true ∧ step s = .fault .noProgress) ∨
    (s.resetInput = .released ∧ s.faulted = false ∧ tickIsNext s = true ∧
      step s = .next (tickAgent (turnTaken s))) ∨
    (s.resetInput = .released ∧ s.faulted = false ∧ tickIsNext s = false ∧ ∃ i rest,
      decode s.rx = .command i rest ∧ step s = exec i { turnTaken s with rx := rest }) ∨
    (s.resetInput = .released ∧ s.faulted = false ∧ tickIsNext s = false ∧ ∃ op rest,
      decode s.rx = .reserved op rest ∧
      step s = .next (respond { turnTaken s with rx := rest } .badOpcode [])) ∨
    (s.resetInput = .released ∧ s.faulted = false ∧ tickIsNext s = false ∧
      decode s.rx = .incomplete ∧ step s = .next (turnTaken s)) := by
  have hrx : (turnTaken s).rx = s.rx := by rw [turnTaken_eq]
  unfold step pick commandAgent
  rw [hrx]
  by_cases hr : s.resetInput = .released
  case neg => exact .inl ⟨hr, by simp [hr]⟩
  case pos =>
    rw [hr]
    cases hf : s.faulted with
    | true => exact .inr (.inl ⟨rfl, rfl, by simp⟩)
    | false =>
      cases ht : tickIsNext s with
      | true => exact .inr (.inr (.inl ⟨rfl, rfl, rfl, by simp⟩))
      | false =>
        cases hd : decode s.rx with
        | command i rest =>
          exact .inr (.inr (.inr (.inl ⟨rfl, rfl, rfl, i, rest, rfl, by simp⟩)))
        | reserved op rest =>
          exact .inr (.inr (.inr (.inr (.inl ⟨rfl, rfl, rfl, op, rest, rfl, by simp⟩))))
        | incomplete =>
          exact .inr (.inr (.inr (.inr (.inr ⟨rfl, rfl, rfl, rfl, by simp⟩))))

/-- A tick happens only while a session is active. -/
theorem session_of_tickIsNext {s : State} (h : tickIsNext s = true) : ∃ ses, s.session = some ses := by
  cases hs : s.session with
  | none => rw [tickIsNext_idle hs] at h; cases h
  | some ses => exact ⟨ses, rfl⟩

end Sys2Proof.Machine
end

