-- ==== Sys2Proof/Tests/Slice0.lean ====
section
/-! SUPPORT. The model's own tests: ill-formed terms refused, commands written out from the spec decoded, the
derived vectors of 95_test_vectors.md on the fixture fonts, and, for every obligation with hypotheses, a
witness that meets them. `V<n>`, `S<n>`, `P<n>` name vectors, source examples and programs of that file. -/

namespace Sys2Proof.Tests

open Sys2Proof Sys2Proof.Machine

set_option Elab.async false

/-! ### Fixtures (95_test_vectors.md section 1) -/

/-- `n` all-zero glyphs of width `w`. -/
def blanks (n w : Nat) : List Byte := List.replicate (n * w) 0

/-- TF0: 5 columns, 7 rows, offset 0, 96 glyphs. -/
def tf0 : Font where
  fontWidth := 5
  fontHeight := 7
  startOffset := 0
  glyphCount := 96
  table := blanks 1 5 ++ [0x00, 0x00, 0x5F, 0x00, 0x00] ++ blanks 12 5 ++
    [0x00, 0x60, 0x60, 0x00, 0x00] ++ blanks 18 5 ++ [0x7C, 0x12, 0x11, 0x12, 0x7C] ++
    [0x7F, 0x49, 0x49, 0x49, 0x36] ++ blanks 6 5 ++ [0x00, 0x41, 0x7F, 0x41, 0x00] ++ blanks 54 5
  wf := by decide +kernel

/-- TF1: 4 columns, 5 rows, offset 1, 16 glyphs. -/
def tf1 : Font where
  fontWidth := 4
  fontHeight := 5
  startOffset := 1
  glyphCount := 16
  table := blanks 1 4 ++ [0x00, 0x2E, 0x00, 0x00, 0x01, 0x06, 0x00, 0x06, 0x14, 0x3E, 0x3E, 0x14] ++
    blanks 12 4
  wf := by decide

/-- NFONTS = 2, MAX_TEXT_LEN = 255. -/
def cfg : Config where
  firstFont := tf0
  otherFonts := [tf1]
  maxTextLen := 255

/-- The surface with exactly these cells lit. -/
def surface (cells : List (Nat × Nat)) : Grid := gridOf fun x y => cells.contains (x, y)

/-- The lit cells, row by row. -/
def litCells (g : Grid) : List (Nat × Nat) :=
  (List.range 14).flatMap fun y => (List.range 28).filterMap fun x =>
    if cell g x y then some (x, y) else none

/-- An idle block with the fixture fonts and surface `g`, its frame registers zero and not valid. -/
def idle (g : Grid) : State where
  cfg := cfg
  fb := g
  txf0 := Vector.replicate 32 0
  txf1 := Vector.replicate 32 0
  frValid := false
  session := none
  faulted := false
  txLog := []
  evLog := []
  rx := []
  respLog := []
  sinkAnswers := []
  turns := []
  drawn := 0
  resetInput := .released

/-- The all-zero idle block. -/
def s0 : State := idle fbZero

/-- The session of V54: text "AI", interval 100, tag 1, at index `k`. -/
def sessionAI (k : Nat) : Session :=
  { stext := [0x41, 0x49], sidx := k, sfont := 0, sx := 0, sy := 0, sivl := 100, scb := 1 }

/-- The block of V54 at index `k`, the next turns as given. -/
def scrolling (k : Nat) (turns : List Bool) : State :=
  { s0 with session := some (sessionAI k), turns := turns }

/-- The block of V40: frames of the zero surface, the sink's answers as given. -/
def loaded (answers : List Nat) : State :=
  { s0 with txf0 := encodeTop fbZero, txf1 := encodeBottom fbZero, frValid := true, sinkAnswers := answers }

/-- `s` with reset asserted inside its next operation. -/
def resetInside (s : State) : State := { s with resetInput := .inOperation }

/-- A property of the next state. -/
def check (o : Host.Outcome State Fault Refusal) (p : State → Bool) : Bool :=
  match o with
  | .next t => p t
  | .fault _ => false
  | .refused _ => false

/-- The step stopped in the fault. -/
def stopped (o : Host.Outcome State Fault Refusal) : Bool :=
  match o with
  | .fault .noProgress => true
  | .next _ => false
  | .refused _ => false

/-! ### WellFormed refuses -/

theorem test_wf_dstr_nul : ¬ (Instr.dstr 0 0 0 0 [0x41, 0x00]).WellFormed := by decide
theorem test_wf_scrl_nul : ¬ (Instr.scrl 0 0 0 100 1 [0x00]).WellFormed := by decide
theorem test_wf_dbmp_short : ¬ (Instr.dbmp 3 2 0 0 0 [1, 0, 1, 0, 1]).WellFormed := by decide
theorem test_wf_encf_short : ¬ (Instr.encf [1, 0, 1]).WellFormed := by decide
theorem test_wf_dbmp : (Instr.dbmp 3 2 0 0 0 [1, 0, 1, 0, 1, 1]).WellFormed := by decide

/-! ### The parameters -/

/-- The consistency checks of R8. -/
theorem test_parameters : 3 + WIDTH + 1 = FRAME_LEN ∧ NPANELS * PANEL_ROWS = HEIGHT ∧
    HEIGHT * WIDTH = FLAT_LEN ∧ CHAR_MASK.toNat - CHAR_BASE = 95 := by decide

/-! ### Every constructor's command, written out from R81 and R90 -/

theorem test_decode_init : decode [0x01] = .command .init [] := by decide
theorem test_decode_clear : decode [0x02] = .command .clear [] := by decide
/-- V25. -/
theorem test_decode_setpx : decode [0x03, 0x05, 0x09, 0x80] = .command (.setpx 5 9 0x80) [] := by decide
/-- V12. -/
theorem test_decode_meas : decode [0x04, 0x01, 0x22] = .command (.meas 1 0x22) [] := by decide
/-- V14. -/
theorem test_decode_dchr :
    decode [0x05, 0x00, 0x41, 0x17, 0x08] = .command (.dchr 0 0x41 23 8) [] := by decide
/-- V30. -/
theorem test_decode_dstr : decode [0x06, 0x00, 0x14, 0x00, 0x01, 0x41, 0x49, 0x41, 0x00] =
    .command (.dstr 0 20 0 1 [0x41, 0x49, 0x41]) [] := by decide
/-- V37. -/
theorem test_decode_dbmp : decode [0x07, 0x03, 0x02, 0x1A, 0x0D, 0x00, 0x01, 0x00, 0x01, 0x00, 0x01, 0x01] =
    .command (.dbmp 3 2 26 13 0 [1, 0, 1, 0, 1, 1]) [] := by decide
/-- V58: the interval is sent low byte first. -/
theorem test_decode_scrl : decode [0x08, 0x00, 0x00, 0x00, 0x2C, 0x01, 0x07, 0x42, 0x00] =
    .command (.scrl 0 0 0 300 7 [0x42]) [] := by decide
theorem test_decode_tick : decode [0x09] = .command .tick [] := by decide
theorem test_decode_enc : decode [0x0A] = .command .enc [] := by decide
theorem test_decode_encf : decode (0x0B :: (List.replicate 391 0x00 ++ [0x01])) =
    .command (.encf (List.replicate 391 0x00 ++ [0x01])) [] := by decide +kernel
theorem test_decode_send : decode [0x0C] = .command .send [] := by decide
/-- V59, V60, V61: reserved opcodes take one byte. -/
theorem test_decode_reserved : decode [0x00] = .reserved 0x00 [] ∧ decode [0x0D] = .reserved 0x0D [] ∧
    decode [0xFF, 0x01] = .reserved 0xFF [0x01] := by decide
/-- R93: a command cut short. -/
theorem test_decode_incomplete : decode [] = .incomplete ∧ decode [0x03, 0x1B] = .incomplete ∧
    decode [0x06, 0x00, 0x00, 0x00, 0x00, 0x41] = .incomplete := by decide
/-- The table's word for DBMP with `w = 2`, `h = 1` in its operand bytes, the data bytes zero. -/
theorem test_table_word_dbmp : decodeTableWord 24 0x010207 = some (.dbmp 2 1 0 0 0 [0, 0]) := by
  decide +kernel

/-! ### Glyphs -/

/-- V1 to V4c. -/
theorem test_glyph_index : glyphIndex tf0 0x41 = 33 ∧ glyphIndex tf0 0xC1 = 33 ∧
    glyphIndex tf0 0x1F = 0 ∧ glyphIndex tf0 0x9F = 0 ∧ glyphIndex tf1 0x30 = 0 ∧
    glyphIndex tf1 0x2F = 15 ∧ glyphIndex tf0 0xFF = 95 := by decide
/-- V6, V9, V12. -/
theorem test_meas : check (exec (.meas 0 0x49) s0) (·.respLog == [0x00, 0x01, 0x01, 0x03]) ∧
    check (exec (.meas 0 0x20) s0) (·.respLog == [0x00, 0x00, 0x04, 0x01]) ∧
    check (exec (.meas 1 0x22) s0) (·.respLog == [0x00, 0x00, 0x00, 0x04]) := by decide +kernel
/-- V12c, and the last font that exists. -/
theorem test_meas_bad_font : check (exec (.meas 2 0x41) s0) (·.respLog == [0x04]) ∧
    check (exec (.meas 1 0x41) s0) (·.respLog == [0x00, 0x00, 0x03, 0x01]) := by decide +kernel
/-- V14: the glyph's last row is dropped. -/
theorem test_dchr_clipped : check (exec (.dchr 0 0x41 23 8) s0) (fun t => t.respLog == [0x00, 0x05] &&
    litCells t.fb == [(25, 8), (24, 9), (26, 9), (23, 10), (27, 10), (23, 11), (27, 11), (23, 12),
      (24, 12), (25, 12), (26, 12), (27, 12), (23, 13), (27, 13)]) := by decide +kernel
/-- V15 (24 + 5 = 29 does not fit), V20d (an unlit bit does not clear a lit cell). -/
theorem test_dchr_misfit_and_or : check (exec (.dchr 0 0x41 24 0) s0) (fun t => t.respLog == [0x01] &&
      t.fb == fbZero) ∧
    check (exec (.dchr 0 0x21 3 3) (idle (surface [(3, 8)]))) (fun t =>
      litCells t.fb == [(3, 3), (3, 4), (3, 5), (3, 6), (3, 7), (3, 8), (3, 9)]) := by decide +kernel

/-! ### Framebuffer -/

/-- R132's example: INIT, then ENC gives the all_dark pair. -/
theorem test_init : check (exec .init (idle (surface [(3, 8)]))) (fun t => t.fb == fbZero &&
    t.respLog == [0x00]) := by decide +kernel
/-- V58: CLEAR releases the session. -/
theorem test_clear : check (exec .clear (scrolling 1 [])) (fun t => t.session == none &&
    t.fb == fbZero && t.respLog == [0x00] && t.evLog == []) := by decide +kernel
/-- V21, V25. -/
theorem test_setpx : check (exec (.setpx 27 13 1) s0) (fun t => litCells t.fb == [(27, 13)] &&
      t.respLog == [0x00]) ∧
    check (exec (.setpx 5 9 0) (idle (surface [(5, 9)]))) (·.fb == fbZero) := by decide +kernel
/-- V23, V24. -/
theorem test_setpx_out : check (exec (.setpx 28 0 1) s0) (fun t => t.fb == fbZero && t.respLog == [0x01]) ∧
    check (exec (.setpx 0 14 1) s0) (·.respLog == [0x01]) := by decide +kernel
/-- V30 (program P2): two wraps, the second line clipped, the third off the surface. -/
theorem test_dstr_wrap : check (exec (.dstr 0 20 0 1 [0x41, 0x49, 0x41]) s0) (fun t =>
    t.respLog == [0x00, 0x03] && !t.faulted && (litCells t.fb).drop 16 == [(20, 8), (21, 8), (22, 8),
      (21, 9), (21, 10), (21, 11), (21, 12), (21, 13)]) := by decide +kernel
/-- V32 (program P6): the fault, with the I drawn; V33b: the same without wrap stops silently. -/
theorem test_dstr_fault : check (exec (.dstr 0 24 0 1 [0x49, 0x41]) s0) (fun t => t.faulted &&
      t.respLog == [0x07, 0x01] && (litCells t.fb).length == 11) ∧
    check (exec (.dstr 0 26 0 0 [0x41]) s0) (fun t => t.respLog == [0x00, 0x00] && !t.faulted) := by
  decide +kernel
/-- V35, V37. -/
theorem test_dbmp : check (exec (.dbmp 3 2 1 1 1 [1, 0, 1, 0, 1, 1]) s0) (fun t =>
      litCells t.fb == [(2, 1), (1, 2)]) ∧
    check (exec (.dbmp 3 2 26 13 0 [1, 0, 1, 0, 1, 1]) s0) (fun t => litCells t.fb == [(26, 13)] &&
      t.respLog == [0x00]) := by decide +kernel
/-- V36: a blit writes zeros too. -/
theorem test_dbmp_overwrites : check (exec (.dbmp 3 2 1 1 0 [1, 0, 1, 0, 1, 1])
    (idle (gridOf fun _ _ => true))) (fun t => (litCells t.fb).length == 390 &&
      !cell t.fb 2 1 && !cell t.fb 1 2) := by decide +kernel

/-! ### Scrolling -/

/-- V54, V55. -/
theorem test_scrl : check (exec (.scrl 0 0 0 100 1 [0x41, 0x49]) s0) (fun t =>
      t.session == some (sessionAI 0) && t.respLog == [0x00]) ∧
    check (exec (.scrl 0 0 0 100 2 [0x42]) (scrolling 0 [])) (fun t =>
      t.session == some (sessionAI 0) && t.respLog == [0x02]) := by decide +kernel
/-- R218: the string's length is looked at before the font, the font before the session. -/
theorem test_scrl_order :
    check (exec (.scrl 9 0 0 0 0 (List.replicate 256 0x41)) (scrolling 0 [])) (·.respLog == [0x08]) ∧
    check (exec (.scrl 2 0 0 0 0 [0x41]) (scrolling 0 [])) (·.respLog == [0x04]) := by decide +kernel
/-- V56, the first and third tick: "I" (11 cells), "AI" (27 cells). -/
theorem test_tick : check (exec .tick (scrolling 0 [])) (fun t => t.session == some (sessionAI 1) &&
      (litCells t.fb).length == 11 && t.evLog.map (·.tag) == [0x01] && t.respLog == [0x00]) ∧
    check (exec .tick (scrolling 2 [])) (fun t => t.session == some (sessionAI 0) &&
      (litCells t.fb).length == 27) := by decide +kernel
/-- V57. -/
theorem test_tick_idle : check (exec .tick s0) (fun t => t.respLog == [0x09] && t.evLog == []) := by
  decide +kernel

/-! ### Encoder and transport -/

/-- V46. -/
theorem test_enc : check (exec .enc (idle (surface [(5, 9)]))) (fun t => t.frValid &&
    t.txf0.toList == [0x80, 0x83, 0x15] ++ List.replicate 28 0x00 ++ [0x8F] &&
    t.txf1.toList == [0x80, 0x83, 0x17] ++ List.replicate 5 0x00 ++ [0x04] ++ List.replicate 22 0x00 ++ [0x8F] &&
    t.respLog == 0x00 :: (t.txf0.toList ++ t.txf1.toList)) := by decide +kernel
/-- V43, V45: rows 6 and 13 are both bit 6. -/
theorem test_enc_bit6 : check (exec .enc (idle (surface [(27, 6), (27, 13)]))) (fun t =>
    t.txf0.toList == [0x80, 0x83, 0x15] ++ List.replicate 27 0x00 ++ [0x40, 0x8F] &&
    t.txf1.toList == [0x80, 0x83, 0x17] ++ List.replicate 27 0x00 ++ [0x40, 0x8F]) := by decide +kernel
/-- V49b: index 27 is row 0 column 27, index 28 is row 1 column 0; FB is untouched. -/
theorem test_encf : check (exec (.encf (List.replicate 27 0x00 ++ [0x01, 0x01] ++ List.replicate 363 0x00))
    (idle (surface [(5, 9)]))) (fun t =>
    t.txf0.toList == [0x80, 0x83, 0x15, 0x02] ++ List.replicate 26 0x00 ++ [0x01, 0x8F] &&
    t.txf1.toList.drop 3 == List.replicate 28 0x00 ++ [0x8F] && cell t.fb 5 9) := by decide +kernel
/-- V51, V50. -/
theorem test_send : check (exec .send (loaded [32, 32])) (fun t => t.respLog == [0x00] &&
      t.txLog == [0x80, 0x83, 0x15] ++ List.replicate 28 0x00 ++ [0x8F, 0x80, 0x83, 0x17] ++
        List.replicate 28 0x00 ++ [0x8F]) ∧
    check (exec .send s0) (fun t => t.respLog == [0x06] && t.txLog == []) := by decide +kernel
/-- V52, V53. -/
theorem test_send_short : check (exec .send (loaded [10, 32])) (fun t => t.respLog == [0x03, 0x00] &&
      t.txLog == [0x80, 0x83, 0x15, 0x00, 0x00, 0x00, 0x00, 0x00, 0x00, 0x00] && t.sinkAnswers == [32]) ∧
    check (exec .send (loaded [32, 5])) (fun t => t.respLog == [0x03, 0x01] &&
      t.txLog.drop 32 == [0x80, 0x83, 0x17, 0x00, 0x00]) := by decide +kernel

/-! ### The step -/

/-- V61: the byte after a reserved opcode is a new opcode. -/
theorem test_step_reserved : check (step { s0 with rx := [0xFF, 0x01] }) (fun t => t.respLog == [0x05] &&
    t.rx == [0x01]) := by decide +kernel
/-- P6, step 3: a faulted block accepts nothing. -/
theorem test_step_faulted : stopped (step { s0 with faulted := true, rx := [0x01] }) := by decide +kernel
/-- R165: the tick agent's turn, with no response and no command byte consumed. -/
theorem test_step_tick_agent : check (step { scrolling 0 [true] with rx := [0x02] }) (fun t =>
    t.session == some (sessionAI 1) && t.rx == [0x02] && t.respLog == [] && t.turns == []) := by
  decide +kernel
/-- R250: reset leaves the fault. -/
theorem test_step_reset : check (step { s0 with faulted := true, resetInput := .atBoundary, frValid := true })
    (fun t => !t.faulted && t.resetInput == .released && !t.frValid) := by decide +kernel
/-- R250: INIT, abandoned by a reset inside it, has been read and is never answered; ENC comes next. -/
theorem test_step_reset_inside : check (step (resetInside { s0 with rx := [0x01, 0x0A] }))
    (fun t => t.rx == [0x0A] && t.respLog == [] && t.resetInput == .released) := by decide +kernel
/-- The first command after reset runs. -/
theorem test_step_placed : check (step (State.reset.withFetchWord 8 0x0A)) (·.frValid) := by decide +kernel

/-! ### Witnesses

One theorem per obligation with hypotheses: a state and operands that meet all of them, with one for each
clause at the edge of its range. -/

/-- The idle block with these command bytes. -/
def sending (bytes : List Byte) : State := { s0 with rx := bytes }

/-- The block of V54 with these command bytes and the next turn the command agent's. -/
def sendingWhileScrolling (bytes : List Byte) : State := { scrolling 0 [false] with rx := bytes }

/-- The command of program P6: wrap, and an `A` that does not fit at column 24. -/
def faultCommand : List Byte := [0x06, 0x00, 0x18, 0x00, 0x01, 0x49, 0x41, 0x00]

/-- What `check` shows. -/
theorem exists_of_check {o : Host.Outcome State Fault Refusal} {p : State → Bool} (h : check o p = true) :
    ∃ t, o = .next t ∧ p t = true := by
  cases o with
  | next t => exact ⟨t, rfl, h⟩
  | fault r => cases h
  | refused r => cases h

/-- A step that `check` accepts has a next state. -/
theorem next_of_check {o : Host.Outcome State Fault Refusal} (h : check o (fun _ => true) = true) :
    ∃ t, o = .next t := (exists_of_check h).imp fun _ ht => ht.1

/-- An operation has a next state in the idle block and in the scrolling one. -/
theorem witness_exec_next (i : Instr) : (∃ t, exec i s0 = .next t) ∧ ∃ t, exec i (scrolling 0 []) = .next t :=
  ⟨exec_next i s0, exec_next i (scrolling 0 [])⟩

theorem witness_DecodeOfEncodeIsTheOperation :
    (Instr.dstr 0 0 0 0 [0xFF]).WellFormed ∧ (Instr.dbmp 0 255 0 0 0 []).WellFormed ∧
      (Instr.scrl 0 0 0 0xFFFF 0 []).WellFormed := by decide
theorem witness_DecodedBytesAreTheCommand :
    decode [0x03, 0x1B, 0x0D, 0x01, 0x02] = .command (.setpx 27 13 1) [0x02] := by decide
theorem witness_BeginningOfCommandIsIncomplete : (Instr.setpx 27 13 1).WellFormed ∧ [(1 : Byte)] ≠ [] ∧
    encode (.setpx 27 13 1) = [0x03, 0x1B, 0x0D] ++ [0x01] := by decide
theorem witness_ReservedOpcodesAnswerBadOpcode :
    tickIsNext (sending [0x00]) = false ∧ (sending [0x00]).resetInput = .released ∧
    (sending [0x00]).faulted = false ∧ (0x00 : Byte).toNat = 0 ∧
    tickIsNext (sendingWhileScrolling [0x0D, 0x01]) = false ∧ 0x0D ≤ (0x0D : Byte).toNat ∧
    0x0D ≤ (0xFF : Byte).toNat := by decide
theorem witness_StepRunsTheDecodedCommand :
    (sendingWhileScrolling [0x02, 0x01]).resetInput = .released ∧
    (sendingWhileScrolling [0x02, 0x01]).faulted = false ∧
    tickIsNext (sendingWhileScrolling [0x02, 0x01]) = false ∧
    decode (sendingWhileScrolling [0x02, 0x01]).rx = .command .clear [0x01] := by decide
theorem witness_PlacedCommandRunsNext : (scrolling 0 []).resetInput = .released ∧ (scrolling 0 []).faulted = false ∧
    decodeTableWord 8 0x0C = some .send := by decide +kernel
theorem witness_CommandsRunInArrivalOrder :
    let is : List Instr := [.init, .dstr 0 0 0 0 [0x41], .enc, .send]
    let s := sending (is.flatMap encode)
    s.resetInput = .released ∧ s.faulted = false ∧ s.session = none ∧ (∀ i ∈ is, i.WellFormed) ∧
      ∀ i ∈ is, (∀ f x y ivl cb str, i ≠ .scrl f x y ivl cb str) ∧
        ∀ f x y wrap str, i = .dstr f x y wrap str → wrap = 0 := by
  refine ⟨rfl, rfl, rfl, by decide, fun i hi => ?_⟩
  simp only [List.mem_cons, List.not_mem_nil, or_false] at hi
  obtain rfl | rfl | rfl | rfl := hi <;> simp +contextual
theorem witness_TickAgentFiresTicksTransition : (scrolling 0 [true]).resetInput = .released ∧
    (scrolling 0 [true]).faulted = false ∧ tickIsNext (scrolling 0 [true]) = true := by decide
theorem witness_IdleBlockEmitsNoUpdate : (sending [0x02]).session = none ∧ (sending [0x02]).resetInput = .released ∧
    ∃ t, step (sending [0x02]) = .next t := ⟨rfl, rfl, next_of_check (by decide +kernel)⟩
theorem witness_BlockStopsOnlyWhenFaulted :
    (({ s0 with faulted := true } : State).faulted = true ∧ ({ s0 with faulted := true } : State).resetInput = .released) ∧
    (s0.faulted = false ∧ s0.resetInput = .released) ∧
    ({ s0 with faulted := true, resetInput := .atBoundary } : State).resetInput ≠ .released := by decide
theorem witness_OnlyWrappingDstrSetsFaulted : (sending faultCommand).faulted = false ∧
    ∃ t, step (sending faultCommand) = .next t ∧ t.faulted = true :=
  ⟨rfl, exists_of_check (p := (·.faulted)) (by decide +kernel)⟩
theorem witness_UnfinishedCommandWaits :
    ((sending [0x03]).resetInput = .released ∧ (sending [0x03]).faulted = false ∧ (sending [0x03]).session = none ∧
      tickIsNext (sending [0x03]) = false ∧ decode (sending [0x03]).rx = .incomplete) ∧
    tickIsNext (sendingWhileScrolling []) = false ∧ decode (sendingWhileScrolling []).rx = .incomplete := by
  decide
theorem witness_ResetEventClearsTheBlock :
    (resetInside { scrolling 1 [] with faulted := true }).resetInput ≠ .released := by decide
/-- A command, a reserved opcode, an unfinished command and a tick that a reset falls into. -/
theorem witness_ResetAbandonsTheOperation :
    (resetInside (sending [0x01, 0x0A])).resetInput ≠ .released ∧
    (tickIsNext (resetInside (sending [0x01, 0x0A])) = false ∧
      decode (resetInside (sending [0x01, 0x0A])).rx = .command .init [0x0A]) ∧
    (tickIsNext (resetInside (sendingWhileScrolling [0xFF, 0x01])) = false ∧
      decode (resetInside (sendingWhileScrolling [0xFF, 0x01])).rx = .reserved 0xFF [0x01]) ∧
    decode (resetInside (sending [0x03])).rx = .incomplete ∧
    tickIsNext (resetInside (scrolling 0 [true])) = true ∧
    (resetInside (scrolling 0 [true])).faulted = false := by decide
/-- The invariant holds of a block with a session and valid frames. -/
theorem witness_StepKeepsTheInvariant :
    Inv { loaded [] with session := some (sessionAI 2), turns := [true] } ∧
    ∃ t, step { loaded [] with session := some (sessionAI 2), turns := [true] } = .next t := by
  refine ⟨⟨fun ses h => ?_, fun _ => ?_, .empty⟩, next_of_check (by decide +kernel)⟩
  · cases h; unfold SessionOk; decide
  · unfold IsDeviceFrame; decide +kernel
theorem witness_ConfigurationNeverChanges : ∃ t, step (sending [0x01]) = .next t :=
  next_of_check (by decide +kernel)
theorem witness_LogsOnlyGrow : (scrolling 0 [true]).resetInput = .released ∧ ∃ t, step (scrolling 0 [true]) = .next t :=
  ⟨rfl, next_of_check (by decide +kernel)⟩
theorem witness_OnlyEncodersWriteFrameRegisters : (∃ t, exec .send (loaded [32, 32]) = .next t) ∧
    Instr.send ≠ .enc ∧ ∀ d, Instr.send ≠ .encf d := ⟨exec_next _ _, by simp, by simp⟩
theorem witness_EachSpaceHasItsWriters : (∃ t, exec (.meas 0 0x41) (scrolling 0 []) = .next t) ∧
    Instr.meas 0 0x41 ≠ .send ∧ Instr.meas 0 0x41 ≠ .tick ∧
    (Instr.meas 0 0x41).mnemonic ∈ [Mnemonic.meas, .scrl, .enc, .encf, .send] :=
  ⟨exec_next _ _, by decide, by decide, by decide⟩
theorem witness_SessionStateMachine :
    ((scrolling 0 [false]).session ≠ none ∧ check (step (sendingWhileScrolling [0x02])) (·.session == none)) ∧
    s0.session = none ∧ (scrolling 0 []).session = some (sessionAI 0) ∧
    Mnemonic.setpx ∉ [Mnemonic.clear, .scrl, .tick] ∧
    check (exec (.scrl 1 0 0 0 0 []) s0) (·.scrollActive) ∧
    check (exec (.scrl 2 0 0 0 0 []) s0) (!·.scrollActive) := by decide +kernel
theorem witness_SessionEndsOnlyByClearOrReset :
    (sendingWhileScrolling [0x01]).session = some (sessionAI 0) ∧
    (sendingWhileScrolling [0x01]).resetInput = .released ∧ ∃ t, step (sendingWhileScrolling [0x01]) = .next t :=
  ⟨rfl, rfl, next_of_check (by decide +kernel)⟩
theorem witness_ErrorsChangeNothing :
    check (exec (.setpx 28 0 1) s0) (·.respLog == s0.respLog ++ statusCode .outOfBounds :: []) ∧
    check (exec .send (loaded [31])) (·.respLog == s0.respLog ++ statusCode .ioError :: [0]) ∧
    check (exec .send (loaded [32, 0])) (·.respLog == s0.respLog ++ statusCode .ioError :: [1]) := by
  decide +kernel
theorem witness_CellWriteIsBoundsChecked : (27 < 28 ∧ 13 < 14) ∧ ¬(28 < 28 ∧ 0 < 14) ∧ ¬(0 < 28 ∧ 14 < 14) := by
  decide
theorem witness_GlyphIndexMasksAndClamps :
    (0x9F : Byte).toNat % 128 < 0x20 ∧ tf1.glyphCount ≤ (0x30 : Byte).toNat % 128 - 0x20 ∧
    (0x20 ≤ (0xA0 : Byte).toNat % 128 ∧ (0xA0 : Byte).toNat % 128 - 0x20 < tf1.glyphCount) ∧
    (0x2F : Byte).toNat % 128 - 0x20 < tf1.glyphCount ∧ (0xFF : Byte).toNat % 128 - 0x20 < tf0.glyphCount := by
  decide
theorem witness_FontReadsStayInTheTable : 4 < tf0.fontWidth ∧ 4 < (measureGlyph tf0 0x41).visibleWidth ∧
    3 < tf1.fontWidth := by decide +kernel
theorem witness_MeasureFindsTheInk : (∀ c < tf0.fontWidth, glyphCol tf0 0x20 c = 0) ∧
    ∃ c < tf0.fontWidth, glyphCol tf0 0x41 c ≠ 0 := by decide +kernel
theorem witness_MeasAnswersTheExtent : nfonts s0.cfg ≤ (2 : Byte).toNat ∧ (1 : Byte).toNat < nfonts s0.cfg ∧
    (∀ c < (fontAt s0.cfg 0).fontWidth, glyphCol (fontAt s0.cfg 0) 0x20 c = 0) ∧
    (0x1F : Byte).toNat % 128 < 0x20 ∧ (fontAt s0.cfg 1).glyphCount ≤ (0x30 : Byte).toNat % 128 - 0x20 := by
  decide +kernel
theorem witness_DchrLightsTheInkedCells : nfonts s0.cfg ≤ (2 : Byte).toNat ∧ (1 : Byte).toNat < nfonts s0.cfg ∧
    28 < (24 : Byte).toNat + (measureGlyph (fontAt s0.cfg 0) 0x41).visibleWidth ∧
    (23 : Byte).toNat + (measureGlyph (fontAt s0.cfg 0) 0x41).visibleWidth ≤ 28 := by decide +kernel
theorem witness_ClearCancelsAndZeroes : s0.session = none ∧ (∃ t, exec .clear (scrolling 0 []) = .next t) ∧
    (List.replicate 255 (0x41 : Byte)).length ≤ s0.cfg.maxTextLen ∧ (1 : Byte).toNat < nfonts s0.cfg :=
  ⟨rfl, exec_next _ _, by decide +kernel, by decide⟩
theorem witness_SetpxWritesOneCell : 28 ≤ (28 : Byte).toNat ∧ 14 ≤ (14 : Byte).toNat ∧ (27 : Byte).toNat < 28 ∧
    (13 : Byte).toNat < 14 := by decide
theorem witness_DstrRefusesBadOperands : s0.cfg.maxTextLen < (List.replicate 256 (0x41 : Byte)).length ∧
    (List.replicate 255 (0x41 : Byte)).length ≤ s0.cfg.maxTextLen ∧ nfonts s0.cfg ≤ (2 : Byte).toNat := by
  decide +kernel
theorem witness_DstrDrawsThePlacedCharacters :
    (List.replicate 255 (0x41 : Byte)).length ≤ s0.cfg.maxTextLen ∧ (1 : Byte).toNat < nfonts s0.cfg ∧
    (∀ c ∈ [(0x49 : Byte), 0x41],
      (23 : Byte).toNat + (measureGlyph (fontAt s0.cfg 0) c).visibleWidth ≤ 28) ∧
    (0 : Byte) = 0 := by decide +kernel
theorem witness_DstrFaultsWithoutProgress :
    [0x49, 0x41].length ≤ s0.cfg.maxTextLen ∧ (0 : Byte).toNat < nfonts s0.cfg ∧ (0xFF : Byte) ≠ 0 ∧
    ∃ c ∈ [(0x49 : Byte), 0x41], 28 < (24 : Byte).toNat + (measureGlyph (fontAt s0.cfg 0) c).visibleWidth := by
  decide +kernel
theorem witness_StringDrawIsTheSpecLoop : 2 * [(0x49 : Byte), 0x41].length + 1 ≤ 5 := by decide
theorem witness_GlyphDrawsNeverErase :
    (Instr.dchr 0 0x41 0 0).mnemonic ∈ [Mnemonic.dchr, .dstr] ∧
    (∃ t, exec (.dchr 0 0x41 0 0) (idle (surface [(27, 13)])) = .next t) ∧
    cell (idle (surface [(27, 13)])).fb 27 13 = true := ⟨by decide, exec_next _ _, by decide +kernel⟩
theorem witness_DrawingIsIdempotent :
    (Instr.dstr 0 0 0 1 [0x41]).mnemonic ∈ [Mnemonic.init, .clear, .setpx, .dchr, .dstr, .dbmp] ∧
    ∃ t u, exec (.dstr 0 0 0 1 [0x41]) s0 = .next t ∧ exec (.dstr 0 0 0 1 [0x41]) t = .next u := by
  obtain ⟨t, ht⟩ := exec_next (.dstr 0 0 0 1 [0x41]) s0
  obtain ⟨u, hu⟩ := exec_next (.dstr 0 0 0 1 [0x41]) t
  exact ⟨by decide, t, u, ht, hu⟩
theorem witness_ScrlCreatesTheSession : s0.cfg.maxTextLen < (List.replicate 256 (0x41 : Byte)).length ∧
    (List.replicate 255 (0x41 : Byte)).length ≤ s0.cfg.maxTextLen ∧ nfonts s0.cfg ≤ (2 : Byte).toNat ∧
    (1 : Byte).toNat < nfonts s0.cfg ∧ (scrolling 0 []).session ≠ none ∧ s0.session = none := by
  decide +kernel
theorem witness_TickShowsTheSuffix : s0.session = none ∧ (scrolling 2 []).session = some (sessionAI 2) ∧
    (sessionAI 2).stext.length < (sessionAI 2).sidx + 1 ∧
    ¬(sessionAI 1).stext.length < (sessionAI 1).sidx + 1 := by decide
theorem witness_TicksRotateTheText : (scrolling 0 []).session = some (sessionAI 0) ∧ (sessionAI 0).sidx = 0 ∧
    1 ≤ 3 := by decide
theorem witness_ScrollLifeCycle : s0.session = none ∧ [(0x41 : Byte), 0x49].length ≤ s0.cfg.maxTextLen ∧
    (0 : Byte).toNat < nfonts s0.cfg := by decide
theorem witness_SecondScrlIsRefused : s0.session = none ∧
    [(0x41 : Byte), 0x49].length ≤ s0.cfg.maxTextLen ∧ (0 : Byte).toNat < nfonts s0.cfg ∧
    ([] : List Byte).length ≤ s0.cfg.maxTextLen ∧ (1 : Byte).toNat < nfonts s0.cfg := by decide
theorem witness_IntervalIsNeverRead : ∃ t, step (scrolling 0 [true]) = .next t :=
  next_of_check (by decide +kernel)
theorem witness_EncEncodesTheSurface : (∀ x < 28, ∀ y < 14, cell s0.fb x y = false) ∧
    ∀ x < 28, ∀ y < 14, cell (idle (gridOf fun _ _ => true)).fb x y = true := by decide +kernel
theorem witness_EncfEncodesTheBuffer : (List.replicate 392 (0x01 : Byte)).length = 392 := by decide +kernel
/-- V49b's buffer and the surface it spells. -/
theorem witness_EncAndEncfAgree :
    (List.replicate 27 0x00 ++ [(0x01 : Byte), 0x01] ++ List.replicate 363 0x00).length = 392 ∧
    ∀ x < 28, ∀ y < 14,
      ((List.replicate 27 0x00 ++ [(0x01 : Byte), 0x01] ++ List.replicate 363 0x00).getD (y * 28 + x) 0 ≠ 0 ↔
        cell (idle (surface [(27, 0), (0, 1)])).fb x y = true) := by decide +kernel
theorem witness_ReferenceFrames : AllCells false s0.fb ∧ AllCells true (idle (gridOf fun _ _ => true)).fb :=
  ⟨fun x y hx hy => witness_EncEncodesTheSurface.1 x hx y hy,
    fun x y hx hy => witness_EncEncodesTheSurface.2 x hx y hy⟩
theorem witness_EncodeIsInjective : encodeTop fbZero = encodeTop fbZero ∧
    encodeBottom fbZero = encodeBottom fbZero := ⟨rfl, rfl⟩
theorem witness_SendWithoutFrameAnswersNoFrame : s0.frValid = false := by decide
theorem witness_SendTransmitsTopThenBottom : (loaded [32, 32]).frValid = true ∧
    sinkCount (loaded [32, 32]) 32 = 32 ∧ sinkCount (sinkAnswered (loaded [32, 32])) 32 = 32 := by decide
theorem witness_SendReportsTheShortFrame : (loaded [31, 32]).frValid = true ∧
    sinkCount (loaded [31, 32]) 32 < 32 ∧ sinkCount (loaded [32, 0]) 32 = 32 ∧
    sinkCount (sinkAnswered (loaded [32, 0])) 32 < 32 := by decide

end Sys2Proof.Tests
end

section
/-! PROOF. The frames of a surface whose cells all hold one value (30_encoding.md R96). -/

namespace Sys2Proof.Machine

open Sys2Proof

/-- The column byte of a half panel all of whose rows hold `b`; bit 7 has no row (R95). -/
def uniformColumn (b : Bool) : Byte := if b then 0x7F else 0x00

theorem getLsbD_uniformColumn (b : Bool) {r : Nat} (hr : r < 8) :
    (uniformColumn b).getLsbD r = (decide (r < 7) && b) := by
  revert b r
  decide

/-- A half panel whose row bits all hold `b`, bit 7 being 0, is the uniform column 28 times. -/
theorem display_eq_replicate {d : Display} {b : Bool} {p : Nat → Nat → Bool}
    (hd : ∀ {c r : Nat} (hc : c < 28), r < 8 → (d[c]'hc).getLsbD r = (decide (r < 7) && p c r))
    (hp : ∀ c r, c < 28 → r < 7 → p c r = b) : d = Vector.replicate WIDTH (uniformColumn b) := by
  ext1 c hc
  rw [Vector.getElem_replicate]
  refine BitVec.eq_of_getLsbD_eq fun r hr => ?_
  rw [hd hc hr, getLsbD_uniformColumn b hr]
  by_cases hr7 : r < 7
  · rw [hp c r hc hr7]
  · simp [hr7]

section AllCells

variable {b : Bool} {g : Grid}

theorem displays_top_of_allCells (h : AllCells b g) :
    (displays g).1 = Vector.replicate WIDTH (uniformColumn b) :=
  display_eq_replicate (getLsbD_displays_top g) fun c r hc hr => h c r hc (by omega)

theorem displays_bottom_of_allCells (h : AllCells b g) :
    (displays g).2 = Vector.replicate WIDTH (uniformColumn b) :=
  display_eq_replicate (getLsbD_displays_bottom g) fun c r hc hr => h c (7 + r) hc (by omega)

theorem encodeTop_toList_of_allCells (h : AllCells b g) :
    (encodeTop g).toList =
      [0x80, 0x83, 0x15] ++ List.replicate 28 (uniformColumn b) ++ [0x8F] := by
  rw [encodeTop, deviceFrame_toList, displays_top_of_allCells h, Vector.toList_replicate]
  rfl

theorem encodeBottom_toList_of_allCells (h : AllCells b g) :
    (encodeBottom g).toList =
      [0x80, 0x83, 0x17] ++ List.replicate 28 (uniformColumn b) ++ [0x8F] := by
  rw [encodeBottom, deviceFrame_toList, displays_bottom_of_allCells h, Vector.toList_replicate]
  rfl

end AllCells

/-- What ENC leaves in the frame registers (R182, R183). -/
theorem exec_enc_frames (s : State) :
    ∃ t, exec .enc s = .next t ∧ t.txf0 = encodeTop s.fb ∧ t.txf1 = encodeBottom s.fb :=
  ⟨respondFrames (storeFrames s s.fb), rfl, rfl, rfl⟩

/-- Settles O52: every column byte of either half is the uniform one. -/
theorem referenceFrames : Obligations.ReferenceFrames := by
  intro s
  obtain ⟨t, ht, htop, hbottom⟩ := exec_enc_frames s
  have pair : ∀ b, AllCells b s.fb →
      t.txf0.toList = [0x80, 0x83, 0x15] ++ List.replicate 28 (uniformColumn b) ++ [0x8F] ∧
      t.txf1.toList = [0x80, 0x83, 0x17] ++ List.replicate 28 (uniformColumn b) ++ [0x8F] :=
    fun b h => ⟨htop ▸ encodeTop_toList_of_allCells h, hbottom ▸ encodeBottom_toList_of_allCells h⟩
  exact ⟨fun h => ⟨t, ht, pair false h⟩, fun h => ⟨t, ht, pair true h⟩⟩

end Sys2Proof.Machine
end

section
/-! PROOF. The glyph rasterizer's two operations, MEAS and DCHR (40_glyph_rasterizer.md R110 to R115). -/

namespace Sys2Proof.Machine

open Sys2Proof

section GlyphIndex

variable {font : Font} {code : Byte}

/-- The distance from the space, said with truncated subtraction: it is 0 below the space (R57). -/
theorem maskedIndex_eq (code : Byte) : maskedIndex code = code.toNat % 128 - 0x20 := by
  have hmask : (code &&& CHAR_MASK).toNat = code.toNat % 128 := by
    rw [BitVec.toNat_and]
    exact Nat.and_two_pow_sub_one_eq_mod code.toNat 7
  rw [maskedIndex, hmask, CHAR_BASE]
  split
  · next hlow => exact (Nat.sub_eq_zero_of_le hlow.le).symm
  · rfl

/-- A code below the space after masking, or beyond the table, selects entry 0 (R57). -/
theorem glyphIndex_eq_zero
    (h : code.toNat % 128 < 0x20 ∨ font.glyphCount ≤ code.toNat % 128 - 0x20) :
    glyphIndex font code = 0 := by
  rw [glyphIndex, maskedIndex_eq]
  rcases h with hlow | hbeyond
  · rw [Nat.sub_eq_zero_of_le hlow.le, ite_self]
  · exact if_pos hbeyond

/-- The space selects entry 0, in every table (R57). -/
theorem glyphIndex_space : glyphIndex font 0x20 = 0 := by
  rw [glyphIndex, maskedIndex_eq]
  exact ite_self 0

/-- `Measure` reads a code only through the glyph it selects (R111). -/
theorem measureGlyph_congr {a b : Byte} (h : glyphIndex font a = glyphIndex font b) :
    measureGlyph font a = measureGlyph font b := by
  have hcol : glyphCol font a = glyphCol font b := funext fun c => by rw [glyphCol, glyphCol, h]
  simp only [measureGlyph, inkColumns, hcol]

end GlyphIndex

section Extent

variable {font : Font} {code : Byte}

theorem measureGlyph_of_blank (h : ∀ c < font.fontWidth, glyphCol font code c = 0) :
    measureGlyph font code =
      { leftTrim := 0, rightTrim := font.fontWidth - 1, visibleWidth := 1 } := by
  obtain ⟨-, hm⟩ | ⟨a, b, hab, hb, ha, -⟩ := measureGlyph_cases font code
  · exact hm
  · exact absurd (h a (by omega)) ha

/-- The trims and the visible width fill the slot (R115). -/
theorem leftTrim_add_visibleWidth_add_rightTrim (font : Font) (code : Byte) :
    (measureGlyph font code).leftTrim + (measureGlyph font code).visibleWidth +
      (measureGlyph font code).rightTrim = font.fontWidth := by
  obtain ⟨⟨hwidth, -⟩, -⟩ := font.wf
  obtain ⟨-, hm⟩ | ⟨a, b, hab, hb, -, -, -, hm⟩ := measureGlyph_cases font code
  · rw [hm]; dsimp only; omega
  · rw [hm]; dsimp only; omega

/-- Every part of the extent is part of the slot, which is at most 255 columns (R31), so it is a result
byte untruncated (R83). -/
theorem extent_toNat (font : Font) (code : Byte) :
    (resultByte (measureGlyph font code).leftTrim).toNat = (measureGlyph font code).leftTrim ∧
    (resultByte (measureGlyph font code).rightTrim).toNat = (measureGlyph font code).rightTrim ∧
    (resultByte (measureGlyph font code).visibleWidth).toNat =
      (measureGlyph font code).visibleWidth := by
  obtain ⟨⟨-, hwidth⟩, -⟩ := font.wf
  have hsum := leftTrim_add_visibleWidth_add_rightTrim font code
  exact ⟨resultByte_toNat (by omega), resultByte_toNat (by omega), resultByte_toNat (by omega)⟩

end Extent

section Meas

variable {f ch : Byte} {s : State}

theorem exec_meas_of_badFont (h : nfonts s.cfg ≤ f.toNat) :
    exec (.meas f ch) s = .next (respond s .badFont []) := by
  simp [exec, execMeas, badFont_of_le h]

theorem exec_meas_of_font (h : f.toNat < nfonts s.cfg) :
    exec (.meas f ch) s =
      .next (respond s .ok (extentBytes (measureGlyph (fontAt s.cfg f) ch))) := by
  simp [exec, execMeas, badFont_of_lt h]

end Meas

section Dchr

variable {f ch x y : Byte} {s : State}

theorem exec_dchr_of_badFont (h : nfonts s.cfg ≤ f.toNat) :
    exec (.dchr f ch x y) s = .next (respond s .badFont []) := by
  simp [exec, execDchr, badFont_of_le h]

theorem exec_dchr_of_misfit (h : f.toNat < nfonts s.cfg)
    (hfit : fits (fontAt s.cfg f) x.toNat ch = false) :
    exec (.dchr f ch x y) s = .next (respond s .outOfBounds []) := by
  simp [exec, execDchr, badFont_of_lt h, drawGlyph_of_misfit _ _ hfit]

theorem exec_dchr_of_fits (h : f.toNat < nfonts s.cfg)
    (hfit : fits (fontAt s.cfg f) x.toNat ch = true) :
    exec (.dchr f ch x y) s = .next (respond
      { s with fb := drawColumns (fontAt s.cfg f) ch x.toNat y.toNat s.fb } .ok
      [resultByte (measureGlyph (fontAt s.cfg f) ch).visibleWidth]) := by
  simp [exec, execDchr, badFont_of_lt h, drawGlyph_of_fits _ _ hfit]

end Dchr

/-- Settles O31: the three results are parts of a slot of at most 255 columns, and a code out of the
table selects the glyph the space selects. -/
theorem measAnswersTheExtent : Obligations.MeasAnswersTheExtent := by
  intro f ch s
  obtain ⟨hleft, hright, hwidth⟩ := extent_toNat (fontAt s.cfg f) ch
  exact ⟨rfl, exec_meas_of_badFont, fun hf => ⟨_, _, _, hleft, hright, hwidth, exec_meas_of_font hf⟩,
    measureGlyph_of_blank, fun hcode =>
      measureGlyph_congr ((glyphIndex_eq_zero hcode).trans glyphIndex_space.symm)⟩

/-- Settles O32: the fit test splits the font's case, and the surface drawn is `drawColumns`, whose
cells `cell_drawColumns` gives. -/
theorem dchrLightsTheInkedCells : Obligations.DchrLightsTheInkedCells := by
  intro f ch x y s
  refine ⟨rfl, exec_dchr_of_badFont, fun hf hwide => ?_, fun hf hfit => ?_⟩
  · exact exec_dchr_of_misfit hf (decide_eq_false (Nat.not_le.mpr hwide))
  · obtain ⟨-, -, hwidth⟩ := extent_toNat (fontAt s.cfg f) ch
    exact ⟨_, _, hwidth, fun _ _ => cell_drawColumns _ _ _ _ _,
      exec_dchr_of_fits hf (decide_eq_true hfit)⟩

end Sys2Proof.Machine
end

section
/-! PROOF. The framebuffer operation CLEAR (41_framebuffer.md R133), and the SCRL that can follow it. -/

namespace Sys2Proof.Machine

open Sys2Proof

/-- `FbZero()` leaves no cell lit (00_scope.md R13). -/
theorem allCells_fbZero : AllCells false fbZero := fun x y _ _ => cell_fbZero x y

theorem scrollActive_of_idle {s : State} (h : s.session = none) : s.scrollActive = false := by
  rw [State.scrollActive, h, Option.isSome_none]

theorem scrollActive_of_session {s : State} {ses : Session} (h : s.session = some ses) :
    s.scrollActive = true := by
  rw [State.scrollActive, h, Option.isSome_some]

section Clear

variable {s t : State}

theorem exec_clear (s : State) :
    exec .clear s = .next (respond { s with session := none, fb := fbZero } .ok []) := rfl

theorem session_of_exec_clear (h : exec .clear s = .next t) : t.session = none := by
  rw [exec_clear, Host.Outcome.next.injEq] at h
  rw [← h, respond_session]

/-- With no session to discard, CLEAR does what INIT does (R132, R133). -/
theorem exec_clear_of_idle (h : s.session = none) : exec .clear s = exec .init s := by
  rw [exec_clear, ← h]
  rfl

end Clear

/-- SCRL past its three refusals creates the session (R163). -/
theorem exec_scrl_of_idle {f x y cb : Byte} {ivl : Word16} {str : List Byte} {s : State}
    (hlen : str.length ≤ s.cfg.maxTextLen) (hfont : f.toNat < nfonts s.cfg)
    (hidle : s.session = none) :
    exec (.scrl f x y ivl cb str) s =
      .next (respond { s with session := some (newSession f x y ivl cb str) } .ok []) := by
  simp [exec, execScrl, textTooLong_of_le hlen, badFont_of_lt hfont, hidle]

/-- Settles O34: CLEAR leaves an idle block of the same configuration, so no tick comes and none of SCRL's
refusals applies. -/
theorem clearCancelsAndZeroes : Obligations.ClearCancelsAndZeroes := by
  refine ⟨rfl, fun s => ⟨fbZero, allCells_fbZero, exec_clear s, fun t ht => ?_, exec_clear_of_idle,
    fun f x y ivl cb str t ht hlen hfont => ?_⟩⟩
  · have hidle := session_of_exec_clear ht
    exact ⟨scrollActive_of_idle hidle, tickIsNext_idle hidle⟩
  · obtain ⟨hcfg, -⟩ := exec_frame ht
    rw [← hcfg] at hlen hfont
    exact ⟨_, exec_scrl_of_idle hlen hfont (session_of_exec_clear ht), scrollActive_of_session rfl, rfl⟩

end Sys2Proof.Machine
end

section
/-! PROOF. The session state machine (42_scroll.md R160): what each operation, the tick agent and a step do to
the session. -/

namespace Sys2Proof.Machine

open Sys2Proof

@[simp] theorem finishString_session (s : State) (d : StringDrawn) :
    (finishString s d).session = s.session := by
  unfold finishString; split <;> rfl

@[simp] theorem sendFrames_session (s : State) : (sendFrames s).session = s.session := by
  rw [sendFrames_eq]

@[simp] theorem tickAgent_session (s : State) : (tickAgent s).session = s.session.map advanceSession := by
  unfold tickAgent; split <;> simp [*, tickSession_eq]

/-- TICK is the tick agent's transition with a response (R164, R165). -/
theorem exec_tick (s : State) :
    exec .tick s = .next (respond (tickAgent s) (if s.scrollActive then .ok else .notRunning) []) := by
  cases h : s.session <;> simp [exec, execTick, tickAgent, State.scrollActive, h]

section Scrl

variable {f x y cb : Byte} {ivl : Word16} {str : List Byte} {s t : State}

/-! SCRL's three refusals, in the order of R218. -/

theorem exec_scrl_of_long (hlen : s.cfg.maxTextLen < str.length) :
    exec (.scrl f x y ivl cb str) s = .next (respond s .badOperand []) := by
  simp [exec, execScrl, textTooLong_of_lt hlen]

theorem exec_scrl_of_badFont (hlen : str.length ≤ s.cfg.maxTextLen) (hfont : nfonts s.cfg ≤ f.toNat) :
    exec (.scrl f x y ivl cb str) s = .next (respond s .badFont []) := by
  simp [exec, execScrl, textTooLong_of_le hlen, badFont_of_le hfont]

theorem exec_scrl_of_running {ses : Session} (hlen : str.length ≤ s.cfg.maxTextLen)
    (hfont : f.toNat < nfonts s.cfg) (hses : s.session = some ses) :
    exec (.scrl f x y ivl cb str) s = .next (respond s .alreadyRunning []) := by
  simp [exec, execScrl, textTooLong_of_le hlen, badFont_of_lt hfont, hses]

/-- SCRL keeps a running session, and starts one in an idle block when its operands are good. -/
theorem session_of_exec_scrl (h : exec (.scrl f x y ivl cb str) s = .next t) :
    t.session = if s.session = none ∧ str.length ≤ s.cfg.maxTextLen ∧ f.toNat < nfonts s.cfg
      then some (newSession f x y ivl cb str) else s.session := by
  by_cases hlen : str.length ≤ s.cfg.maxTextLen
  case neg =>
    rw [exec_scrl_of_long (Nat.not_le.mp hlen), Host.Outcome.next.injEq] at h
    simp [← h, hlen]
  by_cases hfont : f.toNat < nfonts s.cfg
  case neg =>
    rw [exec_scrl_of_badFont hlen (Nat.not_lt.mp hfont), Host.Outcome.next.injEq] at h
    simp [← h, hfont]
  cases hses : s.session with
  | none =>
    rw [exec_scrl_of_idle hlen hfont hses, Host.Outcome.next.injEq] at h
    simp [← h, hlen, hfont]
  | some ses =>
    rw [exec_scrl_of_running hlen hfont hses, Host.Outcome.next.injEq] at h
    simp [← h, hses]

end Scrl

section Operations

variable {i : Instr} {s t : State}

theorem session_of_exec_tick (h : exec .tick s = .next t) :
    t.session = s.session.map advanceSession := by
  rw [exec_tick, Host.Outcome.next.injEq] at h
  rw [← h, respond_session, tickAgent_session]

/-- Every operation but CLEAR, SCRL and TICK leaves the session as it is. -/
theorem exec_keeps_session (hi : i.mnemonic ∉ [.clear, .scrl, .tick]) (h : exec i s = .next t) :
    t.session = s.session := by
  cases i <;>
    simp only [exec, execInit, execSetpx, execMeas, execDchr, execDstr, execDbmp, execEnc, execEncf,
      execSend, Host.Outcome.next.injEq] at h
  case clear | scrl | tick => simp [Instr.mnemonic] at hi
  all_goals
    subst h
    (repeat' split) <;> simp [respondFrames, storeFrames]

/-- While a session runs, every operation but CLEAR changes at most its read index. -/
theorem session_of_exec_running {ses : Session} (hses : s.session = some ses) (hi : i ≠ .clear)
    (h : exec i s = .next t) : ∃ k, t.session = some { ses with sidx := k } := by
  by_cases hm : i.mnemonic ∈ [.clear, .scrl, .tick]
  case neg => exact ⟨ses.sidx, (exec_keeps_session hm h).trans hses⟩
  cases i
  case clear => exact absurd rfl hi
  case scrl => exact ⟨ses.sidx, by simp [session_of_exec_scrl h, hses]⟩
  case tick => exact ⟨_, by rw [session_of_exec_tick h, hses]; rfl⟩
  all_goals simp [Instr.mnemonic] at hm

end Operations

theorem tickAgent_session_of_running {s : State} {ses : Session} (hses : s.session = some ses) :
    ∃ k, (tickAgent s).session = some { ses with sidx := k } :=
  ⟨advanceIndex ses, by rw [tickAgent_session, hses]; rfl⟩

/-- While a session runs and reset is not asserted, a step that does not run CLEAR changes at most the
read index (R27, R160). -/
theorem session_of_step_running {s t : State} {ses : Session} (hses : s.session = some ses)
    (hr : s.resetInput = .released) (h : step s = .next t) :
    (∃ rest, decode s.rx = .command .clear rest ∧ t.session = none) ∨
      ∃ k, t.session = some { ses with sidx := k } := by
  have hturn : (turnTaken s).session = some ses := (turnTaken_session s).trans hses
  obtain ⟨hn, -⟩ | ⟨-, -, hs⟩ | ⟨-, -, -, hs⟩ | ⟨-, -, -, i, rest, hd, hs⟩ |
    ⟨-, -, -, op, rest, -, hs⟩ | ⟨-, -, -, -, hs⟩ := step_cases s
  · exact absurd hr hn
  all_goals rw [hs] at h
  · cases h
  · cases h
    exact .inr (tickAgent_session_of_running hturn)
  · by_cases hi : i = .clear
    · subst hi
      exact .inl ⟨rest, hd, session_of_exec_clear h⟩
    · exact .inr (session_of_exec_running (s := { turnTaken s with rx := rest }) hturn hi h)
  · cases h
    exact .inr ⟨ses.sidx, hturn⟩
  · cases h
    exact .inr ⟨ses.sidx, hturn⟩

/-- An asserted reset is the reset event, which leaves the block idle (R34). -/
theorem step_of_reset {s : State} (hr : s.resetInput ≠ .released) :
    step s = .next (resetEvent (beforeReset s)) := by
  rw [step, pick, if_pos hr]

/-- Settles O22: a running session outlives every step but CLEAR's and the reset event's, and SCRL's
refusals decide whether an idle block starts one. -/
theorem sessionStateMachine : Obligations.SessionStateMachine := by
  refine ⟨fun s t hrun hstep hend => ?_, fun s hr => ⟨_, step_of_reset hr, resetEvent_session _⟩,
    fun i s t h => ⟨?_, ?_, ?_, fun hi => exec_keeps_session hi h,
      fun ses hses => tickAgent_session_of_running hses⟩⟩
  · by_cases hr : s.resetInput = .released
    case neg => exact .inl hr
    obtain ⟨ses, hses⟩ := Option.ne_none_iff_exists'.mp hrun
    obtain ⟨rest, hd, -⟩ | ⟨k, hk⟩ := session_of_step_running hses hr hstep
    · exact .inr ⟨rest, hd⟩
    · rw [hend] at hk
      cases hk
  · rintro rfl
    exact session_of_exec_clear h
  · rintro f x y ivl cb str rfl
    rw [session_of_exec_scrl h]
    refine ⟨fun hidle => ?_, fun hrun => if_neg fun hgood => hrun hgood.1⟩
    simp only [hidle, true_and]
    split <;> simp [*]
  · rintro rfl
    refine ⟨fun hidle => ?_, fun ses hses => session_of_exec_running (i := .tick) hses (by simp) h⟩
    rw [session_of_exec_tick h, hidle, Option.map_none]

end Sys2Proof.Machine
end

section
/-! PROOF. The two encoding operations, ENC and ENCF (43_frame_encoder.md R180 to R184). -/

namespace Sys2Proof.Machine

open Sys2Proof

section Frames

variable (g : Grid) {c r : Nat} (hc : c < 28)

/-- Bit `r` of column byte `c` of the top frame is row `r` of the surface (R95). -/
theorem getLsbD_encodeTop_column (hr : r < 7) :
    ((encodeTop g)[3 + c]'(by show 3 + c < 32; omega)).getLsbD r = cell g c r := by
  rw [encodeTop, deviceFrame_column _ _ hc, getLsbD_displays_top g hc (by omega), decide_eq_true hr,
    Bool.true_and]

/-- Bit `r` of column byte `c` of the bottom frame is row `7 + r` of the surface (R95). -/
theorem getLsbD_encodeBottom_column (hr : r < 7) :
    ((encodeBottom g)[3 + c]'(by show 3 + c < 32; omega)).getLsbD r = cell g c (7 + r) := by
  rw [encodeBottom, deviceFrame_column _ _ hc, getLsbD_displays_bottom g hc (by omega),
    decide_eq_true hr, Bool.true_and]

end Frames

section Operations

variable (s : State)

/-- ENC's whole effect (R183). -/
theorem exec_enc : exec .enc s = .next (respondFrames (storeFrames s s.fb)) := rfl

/-- ENCF's whole effect (R184). -/
theorem exec_encf (d : List Byte) :
    exec (.encf d) s = .next (respondFrames (storeFrames s (flatGrid d))) := rfl

end Operations

/-- A flat buffer that is non-zero exactly where a surface is lit means that surface (R59). -/
theorem flatGrid_eq {d : List Byte} {g : Grid}
    (h : ∀ x y, x < 28 → y < 14 → (d.getD (y * 28 + x) 0 ≠ 0 ↔ cell g x y = true)) :
    flatGrid d = g := by
  refine grid_ext fun x y hx hy => ?_
  rw [cell_flatGrid d hx hy, lit_eq_decide, Bool.eq_iff_iff, decide_eq_true_eq]
  exact h x y hx hy

/-- Settles O49: the frames are `encodeTop` and `encodeBottom` of the surface, each column bit of which is
a cell. -/
theorem encEncodesTheSurface : Obligations.EncEncodesTheSurface := by
  refine ⟨rfl, fun s => ⟨encodeTop s.fb, encodeBottom s.fb, encodeTop_isDeviceFrame s.fb,
    encodeBottom_isDeviceFrame s.fb, fun c r hc hr => ?_, fun hdark => ?_, fun hbright => ?_,
    exec_enc s⟩⟩
  · exact ⟨getLsbD_encodeTop_column s.fb hc hr, getLsbD_encodeBottom_column s.fb hc hr⟩
  · exact ⟨encodeTop_toList_of_allCells hdark, encodeBottom_toList_of_allCells hdark⟩
  · exact ⟨encodeTop_toList_of_allCells hbright, encodeBottom_toList_of_allCells hbright⟩

/-- Settles O51: the buffer means the surface in FB, and both operations do the same with it. -/
theorem encAndEncfAgree : Obligations.EncAndEncfAgree := by
  intro s d _ hpix
  exact ⟨_, exec_enc s, by rw [exec_encf, flatGrid_eq hpix]⟩

end Sys2Proof.Machine
end

section
/-! PROOF. The decoder and the encoder are each other's inverse (30_encoding.md R80 to R93). -/

namespace Sys2Proof

open Sys2Proof.Machine

section Operands

variable {m : Mnemonic} {i : Instr} {bs rest : List Byte}

/-- The operands the encoder writes are read back whole, whatever follows them (R81, R92). -/
theorem operandsOf_operandBytes (hwf : i.WellFormed) (rest : List Byte) :
    operandsOf i.mnemonic (operandBytes i ++ rest) = some (i, rest) := by
  cases i
  case dstr f x y wrap str =>
    simpa [operandsOf, Instr.mnemonic, operandBytes, operandsS] using takeString_append hwf rest
  case scrl f x y ivl cb str =>
    simpa [operandsOf, Instr.mnemonic, operandBytes, operandsR] using takeString_append hwf rest
  case dbmp w h x y inv data =>
    have hlen : data.length = w.toNat * h.toNat := eq_of_beq hwf
    simp [operandsOf, Instr.mnemonic, operandBytes, operandsB, ← hlen, takeBytes_append]
  case encf d =>
    have hlen : d.length = FLAT_LEN := eq_of_beq hwf
    simp only [operandsOf, Instr.mnemonic, operandBytes, operandsL, ← hlen, takeBytes_append, Option.map_some]
  all_goals rfl

/-- Operands that are read are those of a well-formed operation, as the encoder writes them (R81, R92). -/
theorem operandsOf_eq_some (h : operandsOf m bs = some (i, rest)) :
    i.mnemonic = m ∧ i.WellFormed ∧ bs = operandBytes i ++ rest := by
  cases m <;> simp only [operandsOf] at h
  case setpx | meas | dchr =>
    simp only [operandsP, operandsG, operandsC] at h
    split at h
    · cases h; exact ⟨rfl, rfl, rfl⟩
    · cases h
  case dstr | scrl =>
    simp only [operandsS, operandsR] at h
    split at h
    · obtain ⟨⟨str, rest'⟩, htake, heq⟩ := Option.map_eq_some_iff.mp h
      cases heq
      obtain ⟨hnul, rfl⟩ := takeString_eq_some htake
      exact ⟨rfl, hnul, by simp [operandBytes]⟩
    · cases h
  case dbmp =>
    simp only [operandsB] at h
    split at h
    · obtain ⟨⟨data, rest'⟩, htake, heq⟩ := Option.map_eq_some_iff.mp h
      cases heq
      obtain ⟨hlen, rfl⟩ := takeBytes_eq_some htake
      exact ⟨rfl, beq_of_eq hlen, rfl⟩
    · cases h
  case encf =>
    obtain ⟨⟨d, rest'⟩, htake, heq⟩ := Option.map_eq_some_iff.mp h
    cases heq
    obtain ⟨hlen, rfl⟩ := takeBytes_eq_some htake
    exact ⟨rfl, beq_of_eq hlen, rfl⟩
  all_goals cases h; exact ⟨rfl, rfl, rfl⟩

end Operands

section Decode

variable {i : Instr} {op : Byte} {bs rest : List Byte}

/-- The command of a well-formed operation decodes to it, whatever follows (R81, R90). -/
theorem decode_encode_append (hwf : i.WellFormed) (rest : List Byte) :
    decode (encode i ++ rest) = .command i rest := by
  simp only [encode, List.cons_append, decode, mnemonicOf_opcodeOf, operandsOf_operandBytes hwf]

theorem decode_encode (hwf : i.WellFormed) : decode (encode i) = .command i [] := by
  have h := decode_encode_append hwf []
  rwa [List.append_nil] at h

/-- An accepted operation is well formed, and the bytes read are its command (R90, R91). -/
theorem wellFormed_and_eq_of_decode (h : decode bs = .command i rest) :
    i.WellFormed ∧ bs = encode i ++ rest := by
  cases bs with
  | nil => cases h
  | cons op bs =>
    rw [decode] at h
    split at h
    · cases h
    next m hm =>
      split at h
      · cases h
      next p hp =>
        obtain ⟨rfl, rfl⟩ := Decoded.command.inj h
        obtain ⟨hmnem, hwf, rfl⟩ := operandsOf_eq_some hp
        refine ⟨hwf, ?_⟩
        rw [opcodeOf_of_mnemonicOf hm, ← hmnem, encode, List.cons_append]

/-- The opcodes without an operation are 0x00 and 0x0D to 0xFF (R91). -/
theorem mnemonicOf_eq_none_iff : mnemonicOf op = none ↔ op.toNat = 0 ∨ 0x0D ≤ op.toNat := by
  unfold mnemonicOf
  split
  case h_13 =>
    simp only [imp_false] at *
    simp only [true_iff]
    omega
  all_goals next hop => simp [hop]

/-- A reserved opcode is read without a look at the bytes after it (R91). -/
theorem decode_reserved_iff {op' : Byte} :
    decode (op :: bs) = .reserved op' rest ↔ mnemonicOf op = none ∧ op = op' ∧ bs = rest := by
  rw [decode]
  split
  next hm => simp [hm]
  next m hm => split <;> simp [hm]

end Decode

/-- Settles O1: the opcode selects the operation's format, and that format's operands are read back. -/
theorem decodeOfEncodeIsTheOperation : Obligations.DecodeOfEncodeIsTheOperation :=
  fun _ rest hwf => decode_encode_append hwf rest

/-- Settles O2, from what each format reads. -/
theorem decodedBytesAreTheCommand : Obligations.DecodedBytesAreTheCommand :=
  fun _ _ _ h => wellFormed_and_eq_of_decode h

/-- Settles O3: were the beginning a command, the whole would decode to it too and leave the last bytes
unread; and a command begins with no reserved opcode. -/
theorem beginningOfCommandIsIncomplete : Obligations.BeginningOfCommandIsIncomplete := by
  intro i pre suf hwf hsuf hsplit
  cases hpre : decode pre with
  | incomplete => rfl
  | command j rest =>
    obtain ⟨hwfj, rfl⟩ := wellFormed_and_eq_of_decode hpre
    have hwhole := decode_encode hwf
    rw [hsplit, List.append_assoc, decode_encode_append hwfj] at hwhole
    obtain ⟨-, hnil⟩ := Decoded.command.inj hwhole
    exact absurd (List.append_eq_nil_iff.mp hnil).2 hsuf
  | reserved op rest =>
    cases pre with
    | nil => cases hpre
    | cons b pre =>
      obtain ⟨hreserved, -, -⟩ := decode_reserved_iff.mp hpre
      obtain ⟨rfl, -⟩ := List.cons.inj hsplit
      rw [mnemonicOf_opcodeOf] at hreserved
      cases hreserved

/-- Settles O4: each line spells the command `encode` writes for a well-formed operation. -/
theorem specCommandsDecode : Obligations.SpecCommandsDecode :=
  ⟨decode_encode (i := .init) rfl,
    decode_encode (i := .clear) rfl,
    decode_encode (i := .setpx 27 13 1) rfl,
    decode_encode (i := .meas 0 0x49) rfl,
    decode_encode (i := .dchr 0 0x41 23 8) rfl,
    decode_encode (i := .dstr 0 0 0 0 [0x41, 0x42]) rfl,
    decode_encode (i := .dbmp 3 2 26 13 0 [1, 0, 1, 0, 1, 1]) rfl,
    decode_encode (i := .scrl 0 0 0 100 1 [0x41, 0x49]) rfl,
    decode_encode (i := .scrl 0 0 0 300 7 [0x42]) rfl,
    decode_encode (i := .tick) rfl,
    decode_encode (i := .enc) rfl,
    decode_encode (i := .encf (List.replicate 391 0x00 ++ [0x01]))
      (beq_of_eq (by rw [List.length_append, List.length_replicate]; rfl)),
    decode_encode (i := .send) rfl⟩

/-- Settles O57: the interval's two bytes are its quotient and its remainder by 256. -/
theorem encodeWritesTheSpecsBytes : Obligations.EncodeWritesTheSpecsBytes := by
  refine ⟨rfl, rfl, rfl, rfl, rfl, fun _ _ _ => rfl, fun _ _ => rfl, fun _ _ _ _ => rfl,
    fun _ _ _ _ _ => rfl, fun _ _ _ _ _ _ => rfl, fun f x y ivl cb str => ?_, fun _ => rfl⟩
  refine ⟨intervalLo ivl, intervalHi ivl, ?_, rfl⟩
  rw [intervalLo_toNat, intervalHi_toNat]
  exact (Nat.div_add_mod ivl.toNat 256).symm

end Sys2Proof
end

section
/-! PROOF. What each operation does, an equation per outcome (40_glyph_rasterizer.md to 44_transport.md), and
every outcome of every operation as one relation, from which the rules about all operations follow. -/

namespace Sys2Proof.Machine

open Sys2Proof

section Framebuffer

variable {f x y v wrap : Byte} {str : List Byte} {s : State}

theorem exec_init (s : State) : exec .init s = .next (respond { s with fb := fbZero } .ok []) := rfl

theorem exec_setpx_of_out (h : 28 ≤ x.toNat ∨ 14 ≤ y.toNat) :
    exec (.setpx x y v) s = .next (respond s .outOfBounds []) := by
  rw [exec, execSetpx, if_pos h]

theorem exec_setpx_of_in (hx : x.toNat < 28) (hy : y.toNat < 14) :
    exec (.setpx x y v) s =
      .next (respond { s with fb := fbWrite s.fb x.toNat y.toNat (lit v) } .ok []) := by
  rw [exec, execSetpx, if_neg (not_or.mpr ⟨Nat.not_le.mpr hx, Nat.not_le.mpr hy⟩)]

/-- What DSTR's draw leaves when its operands are good (R135). -/
def dstrDrawn (cfg : Config) (f x y wrap : Byte) (str : List Byte) (g : Grid) : StringDrawn :=
  drawString (fontAt cfg f) (lit wrap) x.toNat str x.toNat y.toNat 0 g

theorem exec_dstr_of_long (hlen : s.cfg.maxTextLen < str.length) :
    exec (.dstr f x y wrap str) s = .next (respond s .badOperand []) := by
  simp [exec, execDstr, textTooLong_of_lt hlen]

theorem exec_dstr_of_badFont (hlen : str.length ≤ s.cfg.maxTextLen) (hfont : nfonts s.cfg ≤ f.toNat) :
    exec (.dstr f x y wrap str) s = .next (respond s .badFont []) := by
  simp [exec, execDstr, textTooLong_of_le hlen, badFont_of_le hfont]

theorem exec_dstr_of_drawn (hlen : str.length ≤ s.cfg.maxTextLen) (hfont : f.toNat < nfonts s.cfg)
    (hd : (dstrDrawn s.cfg f x y wrap str s.fb).noProgress = false) :
    exec (.dstr f x y wrap str) s =
      .next (respond { s with fb := (dstrDrawn s.cfg f x y wrap str s.fb).grid } .ok
        [resultByte (dstrDrawn s.cfg f x y wrap str s.fb).count]) := by
  rw [dstrDrawn] at *
  simp [exec, execDstr, textTooLong_of_le hlen, badFont_of_lt hfont, finishString, hd]

theorem exec_dstr_of_noProgress (hlen : str.length ≤ s.cfg.maxTextLen) (hfont : f.toNat < nfonts s.cfg)
    (hd : (dstrDrawn s.cfg f x y wrap str s.fb).noProgress = true) :
    exec (.dstr f x y wrap str) s =
      .next (takeFault { s with fb := (dstrDrawn s.cfg f x y wrap str s.fb).grid }
        (dstrDrawn s.cfg f x y wrap str s.fb).count) := by
  rw [dstrDrawn] at *
  simp [exec, execDstr, textTooLong_of_le hlen, badFont_of_lt hfont, finishString, hd]

end Framebuffer

section TickAndSend

variable {s : State}

theorem exec_tick_of_idle (h : s.session = none) : exec .tick s = .next (respond s .notRunning []) := by
  simp [exec, execTick, h]

theorem exec_tick_of_session {ses : Session} (h : s.session = some ses) :
    exec .tick s = .next (respond (tickSession s ses) .ok []) := by
  simp [exec, execTick, h]

theorem exec_send_of_noFrame (h : s.frValid = false) :
    exec .send s = .next (respond s .noFrame []) := by
  simp [exec, execSend, h]

theorem exec_send_of_frames (h : s.frValid = true) : exec .send s = .next (sendFrames s) := by
  simp [exec, execSend, h]

end TickAndSend

/-- What an operation run in state `s` can leave: a refusal, which only answers, or the operation's work. -/
inductive Effect (s : State) : Instr → State → Prop where
  | refused {i : Instr} {st : Status} : (st, 0) ∈ responses i →
      st ∉ [Status.ok, .noProgress, .ioError] → Effect s i (respond s st [])
  | init : Effect s .init (respond { s with fb := fbZero } .ok [])
  | clear : Effect s .clear (respond { s with session := none, fb := fbZero } .ok [])
  | setpx (x y v : Byte) : Effect s (.setpx x y v)
      (respond { s with fb := fbWrite s.fb x.toNat y.toNat (lit v) } .ok [])
  | meas (f ch : Byte) : Effect s (.meas f ch)
      (respond s .ok (extentBytes (measureGlyph (fontAt s.cfg f) ch)))
  | dchr (f ch x y : Byte) : Effect s (.dchr f ch x y)
      (respond { s with fb := drawColumns (fontAt s.cfg f) ch x.toNat y.toNat s.fb } .ok
        [resultByte (measureGlyph (fontAt s.cfg f) ch).visibleWidth])
  | dstr (f x y wrap : Byte) (str : List Byte) : Effect s (.dstr f x y wrap str)
      (respond { s with fb := (dstrDrawn s.cfg f x y wrap str s.fb).grid } .ok
        [resultByte (dstrDrawn s.cfg f x y wrap str s.fb).count])
  | dstrFault {f x y wrap : Byte} {str : List Byte} : str.length ≤ s.cfg.maxTextLen →
      f.toNat < nfonts s.cfg → (dstrDrawn s.cfg f x y wrap str s.fb).noProgress = true →
      Effect s (.dstr f x y wrap str)
        (takeFault { s with fb := (dstrDrawn s.cfg f x y wrap str s.fb).grid }
          (dstrDrawn s.cfg f x y wrap str s.fb).count)
  | dbmp (w h x y inv : Byte) (data : List Byte) : Effect s (.dbmp w h x y inv data)
      (respond { s with fb := blit w.toNat h.toNat x.toNat y.toNat (lit inv) data s.fb } .ok [])
  | scrl {f x y : Byte} {ivl : Word16} {cb : Byte} {str : List Byte} :
      str.length ≤ s.cfg.maxTextLen → f.toNat < nfonts s.cfg → s.session = none →
      Effect s (.scrl f x y ivl cb str)
        (respond { s with session := some (newSession f x y ivl cb str) } .ok [])
  | tick {ses : Session} : s.session = some ses → Effect s .tick (respond (tickSession s ses) .ok [])
  | enc : Effect s .enc (respondFrames (storeFrames s s.fb))
  | encf (d : List Byte) : Effect s (.encf d) (respondFrames (storeFrames s (flatGrid d)))
  | sendShortTop : s.frValid = true → sinkCount s 32 < 32 → Effect s .send { s with
      txLog := s.txLog ++ s.txf0.toList.take (sinkCount s 32), respLog := s.respLog ++ [0x03, 0]
      sinkAnswers := (sinkAnswered s).sinkAnswers, drawn := (sinkAnswered s).drawn }
  | sendShortBottom : s.frValid = true → sinkCount s 32 = 32 → sinkCount (sinkAnswered s) 32 < 32 →
      Effect s .send { s with
        txLog := s.txLog ++ s.txf0.toList ++ s.txf1.toList.take (sinkCount (sinkAnswered s) 32)
        respLog := s.respLog ++ [0x03, 1]
        sinkAnswers := (sinkAnswered (sinkAnswered s)).sinkAnswers
        drawn := (sinkAnswered (sinkAnswered s)).drawn }
  | sendBoth : s.frValid = true → sinkCount s 32 = 32 → sinkCount (sinkAnswered s) 32 = 32 →
      Effect s .send { s with
        txLog := s.txLog ++ s.txf0.toList ++ s.txf1.toList, respLog := s.respLog ++ [0x00]
        sinkAnswers := (sinkAnswered (sinkAnswered s)).sinkAnswers
        drawn := (sinkAnswered (sinkAnswered s)).drawn }

theorem exec_eq_next_effect (i : Instr) (s : State) : ∃ t, exec i s = .next t ∧ Effect s i t := by
  cases i
  case init => exact ⟨_, rfl, .init⟩
  case clear => exact ⟨_, rfl, .clear⟩
  case setpx x y v =>
    by_cases hout : 28 ≤ x.toNat ∨ 14 ≤ y.toNat
    · exact ⟨_, exec_setpx_of_out hout, .refused (by simp [responses]) (by decide)⟩
    · exact ⟨_, exec_setpx_of_in (by omega) (by omega), .setpx x y v⟩
  case meas f ch =>
    by_cases hfont : f.toNat < nfonts s.cfg
    · exact ⟨_, exec_meas_of_font hfont, .meas f ch⟩
    · exact ⟨_, exec_meas_of_badFont (by omega), .refused (by simp [responses]) (by decide)⟩
  case dchr f ch x y =>
    by_cases hfont : f.toNat < nfonts s.cfg
    · cases hfit : fits (fontAt s.cfg f) x.toNat ch with
      | true => exact ⟨_, exec_dchr_of_fits hfont hfit, .dchr f ch x y⟩
      | false => exact ⟨_, exec_dchr_of_misfit hfont hfit, .refused (by simp [responses]) (by decide)⟩
    · exact ⟨_, exec_dchr_of_badFont (by omega), .refused (by simp [responses]) (by decide)⟩
  case dstr f x y wrap str =>
    by_cases hlen : str.length ≤ s.cfg.maxTextLen
    · by_cases hfont : f.toNat < nfonts s.cfg
      · cases hd : (dstrDrawn s.cfg f x y wrap str s.fb).noProgress with
        | false => exact ⟨_, exec_dstr_of_drawn hlen hfont hd, .dstr f x y wrap str⟩
        | true => exact ⟨_, exec_dstr_of_noProgress hlen hfont hd, .dstrFault hlen hfont hd⟩
      · exact ⟨_, exec_dstr_of_badFont hlen (by omega), .refused (by simp [responses]) (by decide)⟩
    · exact ⟨_, exec_dstr_of_long (by omega), .refused (by simp [responses]) (by decide)⟩
  case dbmp w h x y inv data => exact ⟨_, rfl, .dbmp w h x y inv data⟩
  case scrl f x y ivl cb str =>
    by_cases hlen : str.length ≤ s.cfg.maxTextLen
    · by_cases hfont : f.toNat < nfonts s.cfg
      · cases hses : s.session with
        | none => exact ⟨_, exec_scrl_of_idle hlen hfont hses, .scrl hlen hfont hses⟩
        | some ses =>
          exact ⟨_, exec_scrl_of_running hlen hfont hses, .refused (by simp [responses]) (by decide)⟩
      · exact ⟨_, exec_scrl_of_badFont hlen (by omega), .refused (by simp [responses]) (by decide)⟩
    · exact ⟨_, exec_scrl_of_long (by omega), .refused (by simp [responses]) (by decide)⟩
  case tick =>
    cases hses : s.session with
    | none => exact ⟨_, exec_tick_of_idle hses, .refused (by simp [responses]) (by decide)⟩
    | some ses => exact ⟨_, exec_tick_of_session hses, .tick hses⟩
  case enc => exact ⟨_, rfl, .enc⟩
  case encf d => exact ⟨_, rfl, .encf d⟩
  case send =>
    cases hfr : s.frValid with
    | false => exact ⟨_, exec_send_of_noFrame hfr, .refused (by simp [responses]) (by decide)⟩
    | true =>
      refine ⟨_, exec_send_of_frames hfr, ?_⟩
      obtain ⟨htop, h⟩ | ⟨htop, hbottom, h⟩ | ⟨htop, hbottom, h⟩ := sendFrames_cases s
      · rw [h]; exact .sendShortTop hfr htop
      · rw [h]; exact .sendShortBottom hfr htop hbottom
      · rw [h]; exact .sendBoth hfr htop hbottom

/-- Everything an operation can do, said once. -/
theorem effect_of_exec {i : Instr} {s t : State} (h : exec i s = .next t) : Effect s i t := by
  obtain ⟨t', ht', heff⟩ := exec_eq_next_effect i s
  rw [h] at ht'
  cases ht'
  exact heff

namespace Effect

variable {i : Instr} {s t : State}

theorem cfg (h : Effect s i t) : t.cfg = s.cfg := by
  cases h <;> rfl

theorem frames (h : Effect s i t) (henc : i ≠ .enc) (hencf : ∀ d, i ≠ .encf d) :
    t.txf0 = s.txf0 ∧ t.txf1 = s.txf1 ∧ t.frValid = s.frValid := by
  cases h
  case enc => exact absurd rfl henc
  case encf d => exact absurd rfl (hencf d)
  all_goals exact ⟨rfl, rfl, rfl⟩

theorem txLog (h : Effect s i t) (hi : i ≠ .send) : t.txLog = s.txLog := by
  cases h
  case sendShortTop | sendShortBottom | sendBoth => exact absurd rfl hi
  all_goals rfl

theorem evLog (h : Effect s i t) (hi : i ≠ .tick) : t.evLog = s.evLog := by
  cases h
  case tick => exact absurd rfl hi
  all_goals rfl

theorem fb (h : Effect s i t) (hi : i.mnemonic ∈ [.meas, .scrl, .enc, .encf, .send]) :
    t.fb = s.fb := by
  cases h
  case init | clear | setpx | dchr | dstr | dstrFault | dbmp | tick => simp [Instr.mnemonic] at hi
  all_goals rfl

/-- SCRL alone starts a session (R27). -/
theorem session_of_idle (h : Effect s i t) (hidle : s.session = none)
    (hi : ∀ f x y ivl cb str, i ≠ .scrl f x y ivl cb str) : t.session = none := by
  cases h
  case clear => rfl
  case scrl => exact absurd rfl (hi _ _ _ _ _ _)
  case tick hses => exact absurd (hidle.symm.trans hses) (by simp)
  all_goals exact hidle

/-- TXLOG grows, if at all, at its end. -/
theorem txLog_prefix (h : Effect s i t) : s.txLog <+: t.txLog := by
  cases h
  case sendShortTop => exact List.prefix_append _ _
  case sendShortBottom | sendBoth => exact List.append_assoc .. ▸ List.prefix_append _ _
  all_goals exact List.prefix_rfl

theorem evLog_prefix (h : Effect s i t) : s.evLog <+: t.evLog := by
  cases h
  case tick => exact List.prefix_append _ _
  all_goals exact List.prefix_rfl

/-- FAULTED is left as it is, but for DSTR's fault. -/
theorem faulted (h : Effect s i t) : t.faulted = s.faulted ∨
    ∃ f x y wrap str, i = .dstr f x y wrap str ∧ str.length ≤ s.cfg.maxTextLen ∧
      f.toNat < nfonts s.cfg ∧ (dstrDrawn s.cfg f x y wrap str s.fb).noProgress = true := by
  cases h
  case dstrFault f x y wrap str hlen hfont hd => exact .inr ⟨f, x, y, wrap, str, rfl, hlen, hfont, hd⟩
  all_goals exact .inl rfl

/-- One response, of a status the operation can answer and with the results of that status (R83, R212). -/
theorem answer (h : Effect s i t) : ∃ st rs, t.respLog = s.respLog ++ statusCode st :: rs ∧
    (st, rs.length) ∈ responses i := by
  cases h
  case refused st hne hmem => exact ⟨st, [], rfl, hmem⟩
  case dstrFault => exact ⟨.noProgress, [_], rfl, by simp [responses]⟩
  case sendShortTop => exact ⟨.ioError, [0], rfl, by simp [responses]⟩
  case sendShortBottom => exact ⟨.ioError, [1], rfl, by simp [responses]⟩
  case enc | encf => exact ⟨.ok, _, rfl, by simp [responses, FRAME_LEN]⟩
  all_goals exact ⟨.ok, _, rfl, by simp [responses, extentBytes]⟩

end Effect

/-- What a step can leave: the reset event, a tick, an operation's work, the answer to a reserved opcode, or
the wait for the rest of a command. -/
inductive StepEffect (s : State) : State → Prop where
  | reset : s.resetInput ≠ .released → StepEffect s (resetEvent (beforeReset s))
  | tick : s.resetInput = .released → tickIsNext s = true → StepEffect s (tickAgent (turnTaken s))
  | command {i : Instr} {rest : List Byte} {t : State} : s.resetInput = .released →
      tickIsNext s = false → decode s.rx = .command i rest →
      Effect { turnTaken s with rx := rest } i t → StepEffect s t
  | reserved {op : Byte} {rest : List Byte} : s.resetInput = .released → tickIsNext s = false →
      decode s.rx = .reserved op rest →
      StepEffect s (respond { turnTaken s with rx := rest } .badOpcode [])
  | wait : s.resetInput = .released → tickIsNext s = false → decode s.rx = .incomplete →
      StepEffect s (turnTaken s)

/-- Everything a step that does not stop can do, said once. -/
theorem stepEffect_of_step {s t : State} (h : step s = .next t) : StepEffect s t := by
  obtain ⟨hr, hs⟩ | ⟨-, -, hs⟩ | ⟨hr, -, ht, hs⟩ | ⟨hr, -, ht, i, rest, hd, hs⟩ |
    ⟨hr, -, ht, op, rest, hd, hs⟩ | ⟨hr, -, ht, hd, hs⟩ := step_cases s <;> rw [hs] at h
  case inr.inr.inr.inl => exact .command hr ht hd (effect_of_exec h)
  all_goals cases h
  · exact .reset hr
  · exact .tick hr ht
  · exact .reserved hr ht hd
  · exact .wait hr ht hd

section TickAgent

variable (s : State)

/-- A tick touches the session, FB and EVLOG only (R164). -/
theorem tickAgent_eq :
    tickAgent s = { s with
      session := (tickAgent s).session, fb := (tickAgent s).fb, evLog := (tickAgent s).evLog } := by
  unfold tickAgent; split <;> rfl

@[simp] theorem tickAgent_cfg : (tickAgent s).cfg = s.cfg := by rw [tickAgent_eq]
@[simp] theorem tickAgent_txf0 : (tickAgent s).txf0 = s.txf0 := by rw [tickAgent_eq]
@[simp] theorem tickAgent_txf1 : (tickAgent s).txf1 = s.txf1 := by rw [tickAgent_eq]
@[simp] theorem tickAgent_frValid : (tickAgent s).frValid = s.frValid := by rw [tickAgent_eq]
@[simp] theorem tickAgent_faulted : (tickAgent s).faulted = s.faulted := by rw [tickAgent_eq]
@[simp] theorem tickAgent_txLog : (tickAgent s).txLog = s.txLog := by rw [tickAgent_eq]
@[simp] theorem tickAgent_rx : (tickAgent s).rx = s.rx := by rw [tickAgent_eq]
@[simp] theorem tickAgent_respLog : (tickAgent s).respLog = s.respLog := by rw [tickAgent_eq]

/-- EVLOG grows, if at all, at its end. -/
theorem tickAgent_evLog_prefix : s.evLog <+: (tickAgent s).evLog := by
  unfold tickAgent
  split
  · exact List.prefix_rfl
  · exact List.prefix_append _ _

end TickAgent

end Sys2Proof.Machine
end

section
/-! PROOF. The invariant of the block (10_state.md R26, R28, 44_transport.md R203): every operation, the tick
agent, the arbitration and the reset event keep it, so every step does. -/

namespace Sys2Proof.Machine

open Sys2Proof

section Clauses

variable {cfg : Config} {ses : Session} {log : List Byte} {top bottom : Frame} {n : Nat}

/-- The read index stays within 0 to SLEN (R164 point b). -/
theorem sessionOk_advanceSession (h : SessionOk cfg ses) : SessionOk cfg (advanceSession ses) := by
  obtain ⟨hlen, hnul, -, hfont⟩ := h
  refine ⟨hlen, hnul, ?_, hfont⟩
  show advanceIndex ses ≤ ses.slen
  rw [advanceIndex]
  split <;> omega

theorem sessionOk_newSession {f x y cb : Byte} {ivl : Word16} {str : List Byte} (hnul : noNul str = true)
    (hlen : str.length ≤ cfg.maxTextLen) (hfont : f.toNat < nfonts cfg) :
    SessionOk cfg (newSession f x y ivl cb str) :=
  ⟨hlen, by simpa [newSession, noNul] using hnul, Nat.zero_le _, hfont⟩

/-- The beginning of a top frame is the beginning of a frame pair. -/
theorem wireLog_append_top (hlog : WireLog log) (htop : IsDeviceFrame 0x15 top)
    (hbottom : IsDeviceFrame 0x17 bottom) (hn : n ≤ 32) : WireLog (log ++ top.toList.take n) := by
  have h := WireLog.segment log top bottom n hlog htop hbottom (by omega)
  rwa [List.take_append_of_le_length (by simpa using hn)] at h

/-- A top frame and the beginning of a bottom frame are the beginning of a frame pair. -/
theorem wireLog_append_pair (hlog : WireLog log) (htop : IsDeviceFrame 0x15 top)
    (hbottom : IsDeviceFrame 0x17 bottom) (hn : n ≤ 32) :
    WireLog (log ++ top.toList ++ bottom.toList.take n) := by
  have h := WireLog.segment log top bottom (top.toList.length + n) hlog htop hbottom
    (by simp [FRAME_LEN]; omega)
  rwa [List.take_length_add_append, ← List.append_assoc] at h

end Clauses

namespace Effect

variable {i : Instr} {s t : State}

theorem session_ok (h : Effect s i t) (hwf : i.WellFormed)
    (hok : ∀ ses, s.session = some ses → SessionOk s.cfg ses) :
    ∀ ses, t.session = some ses → SessionOk t.cfg ses := by
  cases h
  case clear => rintro ses ⟨⟩
  case scrl hlen hfont _ =>
    rintro ses ⟨⟩
    exact sessionOk_newSession hwf hlen hfont
  case tick ses₀ hses =>
    rintro ses ⟨⟩
    exact sessionOk_advanceSession (hok ses₀ hses)
  all_goals exact hok

theorem frames_ok (h : Effect s i t)
    (hok : s.frValid = true → IsDeviceFrame 0x15 s.txf0 ∧ IsDeviceFrame 0x17 s.txf1) :
    t.frValid = true → IsDeviceFrame 0x15 t.txf0 ∧ IsDeviceFrame 0x17 t.txf1 := by
  cases h
  case enc | encf => exact fun _ => ⟨encodeTop_isDeviceFrame _, encodeBottom_isDeviceFrame _⟩
  all_goals exact hok

theorem wire_ok (h : Effect s i t) (hinv : Inv s) : WireLog t.txLog := by
  cases h
  case sendShortTop hfr hcount =>
    obtain ⟨htop, hbottom⟩ := hinv.frames_ok hfr
    exact wireLog_append_top hinv.wire_ok htop hbottom hcount.le
  case sendShortBottom hfr _ hcount =>
    obtain ⟨htop, hbottom⟩ := hinv.frames_ok hfr
    exact wireLog_append_pair hinv.wire_ok htop hbottom hcount.le
  case sendBoth hfr _ _ =>
    obtain ⟨htop, hbottom⟩ := hinv.frames_ok hfr
    have hpair := wireLog_append_pair hinv.wire_ok htop hbottom le_rfl
    rwa [take_frame] at hpair
  all_goals exact hinv.wire_ok

theorem inv (h : Effect s i t) (hwf : i.WellFormed) (hinv : Inv s) : Inv t :=
  ⟨h.session_ok hwf hinv.session_ok, h.frames_ok hinv.frames_ok, h.wire_ok hinv⟩

end Effect

section Step

variable {s : State}

/-- The arbitration and the reading of a command touch nothing the invariant speaks of. -/
theorem inv_turnTaken_rx (hinv : Inv s) (rest : List Byte) : Inv { turnTaken s with rx := rest } := by
  rw [turnTaken_eq]
  exact ⟨hinv.session_ok, hinv.frames_ok, hinv.wire_ok⟩

theorem inv_turnTaken (hinv : Inv s) : Inv (turnTaken s) :=
  inv_turnTaken_rx hinv (turnTaken s).rx

theorem inv_tickAgent (hinv : Inv s) : Inv (tickAgent s) := by
  cases hses : s.session with
  | none => rwa [tickAgent, hses]
  | some ses =>
    rw [tickAgent_of_session hses, tickSession_eq]
    refine ⟨?_, hinv.frames_ok, hinv.wire_ok⟩
    rintro ses' ⟨⟩
    exact sessionOk_advanceSession (hinv.session_ok ses hses)

/-- Right after a reset there is no session, no valid frame and nothing on the wire (R34). -/
theorem inv_resetEvent (s : State) : Inv (resetEvent s) :=
  ⟨by rintro ses ⟨⟩, by rintro ⟨⟩, .empty⟩

end Step

/-- Settles O15: every kind of step keeps the invariant; a command the decoder accepts is well formed, so
SCRL's text has no terminator. -/
theorem stepKeepsTheInvariant : Obligations.StepKeepsTheInvariant := by
  intro s t hinv h
  cases stepEffect_of_step h with
  | reset _ => exact inv_resetEvent _
  | tick _ _ => exact inv_tickAgent (inv_turnTaken hinv)
  | command _ _ hd heff =>
    obtain ⟨hwf, -⟩ := wellFormed_and_eq_of_decode hd
    exact heff.inv hwf (inv_turnTaken_rx hinv _)
  | @reserved _ rest _ _ _ =>
    obtain ⟨hses, hframes, hwire⟩ := inv_turnTaken_rx hinv rest
    exact ⟨hses, hframes, hwire⟩
  | wait _ _ _ => exact inv_turnTaken hinv

/-- Settles O16: the state after reset has no session, no valid frame and nothing on the wire. -/
theorem invariantHoldsAtReset : Obligations.InvariantHoldsAtReset :=
  ⟨by rintro ses ⟨⟩, by rintro ⟨⟩, .empty⟩

end Sys2Proof.Machine
end

section
/-! PROOF. Cells, glyph indices, the font ROM's reads and the laws of Measure (20_memory.md R54 to R57,
40_glyph_rasterizer.md R111, R115). -/

namespace Sys2Proof.Machine

open Sys2Proof

/-- A cell write outside the surface does nothing (R54). -/
theorem fbWrite_of_out {g : Grid} {x y : Nat} {v : Bool} (h : ¬(x < 28 ∧ y < 14)) :
    fbWrite g x y v = g := by
  rw [fbWrite, dif_neg h]

/-- Settles O26. -/
theorem cellWriteIsBoundsChecked : Obligations.CellWriteIsBoundsChecked := by
  refine fun g x y v => ⟨fun hin => ⟨?_, fun px py hne => ?_⟩, fbWrite_of_out⟩
  · rw [cell_fbWrite, if_pos ⟨rfl, rfl, hin⟩]
  · rw [cell_fbWrite, if_neg fun h => hne ⟨h.1, h.2.1⟩]

section Font

variable (font : Font) (code : Byte)

/-- A font has at least one glyph, so entry 0 is there (R31). -/
theorem glyphIndex_lt : glyphIndex font code < font.glyphCount := by
  obtain ⟨-, -, ⟨hcount, -⟩, -⟩ := font.wf
  unfold glyphIndex
  split <;> omega

theorem one_le_visibleWidth : 1 ≤ (measureGlyph font code).visibleWidth := by
  obtain ⟨-, hm⟩ | ⟨a, b, -, -, -, -, -, hm⟩ := measureGlyph_cases font code
  · rw [hm]
  · rw [hm]; exact Nat.le_add_left 1 (b - a)

/-- A column of a slot lies inside the table: the slot of entry `idx` ends where that of `idx + 1` begins
(R56). -/
theorem fontCol_index_lt {c : Nat} (hc : c < font.fontWidth) :
    glyphIndex font code * font.fontWidth + c < font.table.length := by
  obtain ⟨-, -, -, htable⟩ := font.wf
  calc glyphIndex font code * font.fontWidth + c
      < (glyphIndex font code + 1) * font.fontWidth := by rw [Nat.succ_mul]; omega
    _ ≤ font.glyphCount * font.fontWidth := Nat.mul_le_mul_right _ (glyphIndex_lt font code)
    _ = font.table.length := htable.symm

end Font

/-- Settles O27. -/
theorem glyphIndexMasksAndClamps : Obligations.GlyphIndexMasksAndClamps := by
  refine fun font code => ⟨glyphIndex_lt font code, glyphIndex_eq_zero, fun _ hin => ?_⟩
  rw [glyphIndex, maskedIndex_eq, if_neg (Nat.not_le.mpr hin)]

/-- Settles O28: the slot lies inside the table, and the visible columns inside the slot. -/
theorem fontReadsStayInTheTable : Obligations.FontReadsStayInTheTable := by
  refine fun font code => ⟨fun c hc => fontCol_index_lt font code hc, fun k hk => ?_⟩
  have hsum := leftTrim_add_visibleWidth_add_rightTrim font code
  omega

/-- Settles O29: the visible range is the closed range between the first and the last inked column. -/
theorem measureFindsTheInk : Obligations.MeasureFindsTheInk := by
  refine fun font code => ⟨measureGlyph_of_blank, fun ⟨c, hc, hink⟩ => ?_⟩
  obtain ⟨hblank, -⟩ | ⟨a, b, hab, hb, hinka, hinkb, hrange, hm⟩ := measureGlyph_cases font code
  · exact absurd (hblank c hc) hink
  have ha : a < font.fontWidth := by omega
  have hlast : a + (b - a + 1) - 1 = b := by omega
  have hblank : ∀ c < font.fontWidth, c < a ∨ b < c → glyphCol font code c = 0 := by
    intro c hc hout
    by_contra hne
    have hin := hrange c hc hne
    omega
  rw [hm]
  refine ⟨hinka, fun c hca => hblank c (lt_trans hca ha) (.inl hca), ?_,
    fun c hc hbc => hblank c hc (.inr ?_)⟩
  · rwa [hlast]
  · change a + (b - a + 1) ≤ c at hbc
    omega

/-- Settles O30. -/
theorem extentFillsTheSlot : Obligations.ExtentFillsTheSlot := by
  intro font code
  have hsum := leftTrim_add_visibleWidth_add_rightTrim font code
  exact ⟨hsum, one_le_visibleWidth font code, by omega⟩

end Sys2Proof.Machine
end

section
/-! PROOF. The drawing operations: INIT, SETPX, DSTR and DBMP cell by cell, DSTR's loop, and what repeating a
drawing operation leaves (41_framebuffer.md R132 to R136, 20_memory.md R61). -/

namespace Sys2Proof.Machine

open Sys2Proof

section DstrDrawn

variable {cfg : Config} {f x y wrap : Byte} {str : List Byte} {g : Grid}

/-- DSTR's draw lights the cells its placed characters ink (R135). -/
theorem cell_dstrDrawn {px py : Nat} (hx : px < 28) (hy : py < 14) :
    cell (dstrDrawn cfg f x y wrap str g).grid px py = (cell g px py || inkedBy (fontAt cfg f)
      (placements (fontAt cfg f) (decide (wrap ≠ 0)) x.toNat str x.toNat y.toNat) px py) := by
  rw [dstrDrawn, cell_drawString _ _ _ _ _ _ _ _ hx hy, lit_eq_decide]

theorem dstrDrawn_count :
    (dstrDrawn cfg f x y wrap str g).count =
      (placements (fontAt cfg f) (decide (wrap ≠ 0)) x.toNat str x.toNat y.toNat).length := by
  rw [dstrDrawn, count_drawString, lit_eq_decide, Nat.zero_add]

/-- A string has at most 255 characters, so the count is a result byte untruncated (R83, D26). -/
theorem dstrDrawn_count_toNat (hlen : str.length ≤ cfg.maxTextLen) :
    (resultByte (dstrDrawn cfg f x y wrap str g).count).toNat =
      (placements (fontAt cfg f) (decide (wrap ≠ 0)) x.toNat str x.toNat y.toNat).length := by
  have hplaced := placements_length_le (fontAt cfg f) (decide (wrap ≠ 0)) x.toNat str x.toNat y.toNat
  have hmax := cfg.textFits
  rw [dstrDrawn_count, resultByte_toNat (by omega)]

/-- With wrap, the characters placed are those before the first that does not fit at the start column. -/
theorem placements_length_of_wrap (hwrap : wrap ≠ 0) :
    (placements (fontAt cfg f) (decide (wrap ≠ 0)) x.toNat str x.toNat y.toNat).length =
      (str.takeWhile (fits (fontAt cfg f) x.toNat)).length := by
  rw [decide_eq_true hwrap, placements_wrap_length _ _ _ _ le_rfl]

/-- DSTR's draw ends in the fault exactly with wrap and a character that does not fit at the start column
(R135, D13). -/
theorem dstrDrawn_noProgress_iff :
    (dstrDrawn cfg f x y wrap str g).noProgress = true ↔
      wrap ≠ 0 ∧ ∃ c ∈ str, fits (fontAt cfg f) x.toNat c = false := by
  rw [dstrDrawn, noProgress_drawString, lit_eq_decide, Bool.and_eq_true, decide_eq_true_eq,
    decide_eq_true_eq]
  refine and_congr_right fun hwrap => ?_
  rw [placements_length_of_wrap hwrap]
  have hpre := List.takeWhile_prefix (l := str) (fits (fontAt cfg f) x.toNat)
  have hall : str.takeWhile (fits (fontAt cfg f) x.toNat) = str ↔ _ := List.takeWhile_eq_self_iff
  constructor
  · intro hlt
    by_contra hfit
    rw [hall.mpr fun c hc => by simpa using fun h => hfit ⟨c, hc, h⟩] at hlt
    exact lt_irrefl _ hlt
  · rintro ⟨c, hc, hmisfit⟩
    refine lt_of_le_of_ne hpre.length_le fun heq => ?_
    rw [hall.mp (hpre.eq_of_length heq) c hc] at hmisfit
    cases hmisfit

end DstrDrawn

section StringLoop

variable (font : Font) (wrap : Bool) (x : Nat) {str cs : List Byte} {c : Byte} {i fuel : Nat}

/-- The loop ends after the last character (R135). -/
theorem stringLoop_of_end (hend : str.drop i = []) (cx cy : Nat) (g : Grid) :
    stringLoop font wrap x str (fuel + 1) i cx cy g =
      some { grid := g, count := i, noProgress := false } := by
  rw [stringLoop, List.getElem?_eq_none (List.drop_eq_nil_iff.mp hend)]

/-- One iteration of the loop at character `c` (R135). -/
theorem stringLoop_of_char (hchar : str.drop i = c :: cs) (cx cy : Nat) (g : Grid) :
    stringLoop font wrap x str (fuel + 1) i cx cy g =
      if fits font cx c then
        stringLoop font wrap x str fuel (i + 1) (cx + (measureGlyph font c).visibleWidth + 1) cy
          (drawColumns font c cx cy g)
      else if wrap = false then some { grid := g, count := i, noProgress := false }
      else if cx = x then some { grid := g, count := i, noProgress := true }
      else stringLoop font wrap x str fuel i x (cy + font.fontHeight + 1) g := by
  have hget : str[i]? = some c := by
    rw [← Nat.add_zero i, ← List.getElem?_drop, hchar, List.getElem?_cons_zero]
  rw [stringLoop, hget]
  cases hfit : fits font cx c with
  | true => simp [drawGlyph_of_fits cy g hfit]
  | false => simp [drawGlyph_of_misfit cy g hfit]

/-- From character `i` the loop leaves what the model's draw leaves of the characters from there; a wrap
takes a second iteration for the same character (R135, R215). -/
theorem stringLoop_eq_drawString (hdrop : str.drop i = cs) (hfuel : 2 * cs.length + 1 ≤ fuel)
    (cx cy : Nat) (g : Grid) :
    stringLoop font wrap x str fuel i cx cy g = some (drawString font wrap x cs cx cy i g) := by
  induction cs generalizing i fuel cx cy g with
  | nil =>
    obtain ⟨fuel, rfl⟩ := Nat.exists_eq_add_of_le' hfuel
    rw [List.length_nil, Nat.mul_zero, Nat.zero_add, stringLoop_of_end font wrap x hdrop, drawString]
  | cons c cs ih =>
    rw [List.length_cons] at hfuel
    obtain ⟨fuel, rfl⟩ : ∃ k, fuel = k + 2 := ⟨fuel - 2, by omega⟩
    have hnext : str.drop (i + 1) = cs := by rw [← List.drop_drop, hdrop, List.drop_one, List.tail_cons]
    rw [stringLoop_of_char font wrap x hdrop, drawString_cons]
    cases hfit : fits font cx c with
    | true => exact ih hnext (by omega) _ _ _
    | false =>
      cases wrap with
      | false => simp
      | true =>
        by_cases hcx : cx = x
        · subst hcx; simp [hfit]
        · rw [stringLoop_of_char font true x hdrop]
          cases hfitx : fits font x c with
          | true => simpa [hcx] using ih hnext (by omega) _ _ _
          | false => simp [hcx]

end StringLoop

section SurfaceAfter

@[simp] theorem finishString_fb (s : State) (d : StringDrawn) : (finishString s d).fb = d.grid := by
  unfold finishString; split <;> rfl

/-- The surface a drawing operation leaves of surface `g`. -/
def surfaceAfter (cfg : Config) (i : Instr) (g : Grid) : Grid :=
  match i with
  | .init | .clear => fbZero
  | .setpx x y v => fbWrite g x.toNat y.toNat (lit v)
  | .dchr f ch x y =>
    if badFont cfg f || misfit (fontAt cfg f) ch x.toNat then g
    else drawColumns (fontAt cfg f) ch x.toNat y.toNat g
  | .dstr f x y wrap str =>
    if textTooLong cfg str || badFont cfg f then g else (dstrDrawn cfg f x y wrap str g).grid
  | .dbmp w h x y inv data => blit w.toNat h.toNat x.toNat y.toNat (lit inv) data g
  | _ => g

theorem fb_of_exec {i : Instr} {s t : State}
    (hi : i.mnemonic ∈ [.init, .clear, .setpx, .dchr, .dstr, .dbmp]) (h : exec i s = .next t) :
    t.fb = surfaceAfter s.cfg i s.fb := by
  cases i <;> simp only [exec, execInit, execClear, execSetpx, execDchr, execDstr, execDbmp,
    Host.Outcome.next.injEq] at h
  case meas | scrl | tick | enc | encf | send => simp [Instr.mnemonic] at hi
  all_goals subst h
  case setpx x y v =>
    rw [surfaceAfter]
    split
    next hout => exact (fbWrite_of_out (by rwa [not_and_or, not_lt, not_lt])).symm
    next => rfl
  case dchr f ch x y =>
    cases hbad : badFont s.cfg f <;> cases hmisfit : misfit (fontAt s.cfg f) ch x.toNat <;>
      simp [surfaceAfter, drawGlyph, hbad, hmisfit]
  case dstr f x y wrap str =>
    cases hlong : textTooLong s.cfg str <;> cases hbad : badFont s.cfg f <;>
      simp [surfaceAfter, dstrDrawn, hlong, hbad]
  all_goals rfl

/-- An update that leaves each cell as it was, or at a value of its own, does nothing more when repeated. -/
theorem idempotent_of_cells {F : Grid → Grid} (h : ∀ px py, px < 28 → py < 14 →
    (∀ g, cell (F g) px py = cell g px py) ∨ ∃ v, ∀ g, cell (F g) px py = v) (g : Grid) :
    F (F g) = F g := by
  refine grid_ext fun px py hx hy => ?_
  obtain hkeep | ⟨v, hset⟩ := h px py hx hy
  · exact hkeep (F g)
  · rw [hset, hset]

/-- An update that only lights cells of its own choice does nothing more when repeated. -/
theorem idempotent_of_or {F : Grid → Grid} (p : Nat → Nat → Bool)
    (h : ∀ g px py, px < 28 → py < 14 → cell (F g) px py = (cell g px py || p px py)) (g : Grid) :
    F (F g) = F g := by
  refine idempotent_of_cells (fun px py hx hy => ?_) g
  cases hp : p px py with
  | true => exact .inr ⟨true, fun g => by rw [h g px py hx hy, hp, Bool.or_true]⟩
  | false => exact .inl fun g => by rw [h g px py hx hy, hp, Bool.or_false]

theorem surfaceAfter_idempotent (cfg : Config) (i : Instr) (g : Grid) :
    surfaceAfter cfg i (surfaceAfter cfg i g) = surfaceAfter cfg i g := by
  cases i with
  | setpx x y v =>
    refine idempotent_of_cells (F := surfaceAfter cfg (.setpx x y v)) (fun px py hx hy => ?_) g
    simp only [surfaceAfter, cell_fbWrite]
    split
    · exact .inr ⟨_, fun _ => rfl⟩
    · exact .inl fun _ => rfl
  | dchr f ch x y =>
    simp only [surfaceAfter]
    split
    · rfl
    · exact idempotent_of_or _ (fun g px py hx hy => cell_drawColumns _ _ _ _ g hx hy) g
  | dstr f x y wrap str =>
    simp only [surfaceAfter]
    split
    · rfl
    · exact idempotent_of_or (F := fun g => (dstrDrawn cfg f x y wrap str g).grid) _
        (fun g px py hx hy => cell_dstrDrawn hx hy) g
  | dbmp w h x y inv data =>
    refine idempotent_of_cells (F := surfaceAfter cfg (.dbmp w h x y inv data)) (fun px py hx hy => ?_) g
    simp only [surfaceAfter, cell_blit _ _ _ _ _ _ _ hx hy]
    split
    · exact .inr ⟨_, fun _ => rfl⟩
    · exact .inl fun _ => rfl
  | _ => rfl

end SurfaceAfter

/-- Settles O33. -/
theorem initZeroesTheSurface : Obligations.InitZeroesTheSurface :=
  fun s => ⟨fbZero, allCells_fbZero, exec_init s⟩

/-- Settles O35. -/
theorem setpxWritesOneCell : Obligations.SetpxWritesOneCell := by
  refine fun x y v s => ⟨exec_setpx_of_out, fun hx hy => ⟨_, fun px py _ _ => ?_, exec_setpx_of_in hx hy⟩⟩
  simp only [cell_fbWrite, hx, hy, and_true, lit_eq_decide]

/-- Settles O36. -/
theorem dstrRefusesBadOperands : Obligations.DstrRefusesBadOperands :=
  fun _ _ _ _ _ _ => ⟨exec_dstr_of_long, exec_dstr_of_badFont⟩

/-- Settles O37: without the fault the answer is OK, and with wrap every character fits. -/
theorem dstrDrawsThePlacedCharacters : Obligations.DstrDrawsThePlacedCharacters := by
  intro f x y wrap str s hlen hfont hfit
  have hdone : (dstrDrawn s.cfg f x y wrap str s.fb).noProgress = false := by
    refine Bool.eq_false_iff.mpr fun hfault => ?_
    obtain ⟨hwrap, c, hc, hmisfit⟩ := dstrDrawn_noProgress_iff.mp hfault
    exact absurd (hfit.resolve_left hwrap c hc) (of_decide_eq_false hmisfit)
  refine ⟨_, _, dstrDrawn_count_toNat hlen, fun hwrap => ?_, fun _ _ hx hy => cell_dstrDrawn hx hy,
    exec_dstr_of_drawn hlen hfont hdone⟩
  have hall : ∀ c ∈ str, fits (fontAt s.cfg f) x.toNat c = true :=
    fun c hc => decide_eq_true (hfit.resolve_left hwrap c hc)
  rw [dstrDrawn_count_toNat hlen, placements_length_of_wrap hwrap, List.takeWhile_eq_self_iff.mpr hall]

/-- Settles O38: the fault leaves the draw and the count of the characters before the misfit. -/
theorem dstrFaultsWithoutProgress : Obligations.DstrFaultsWithoutProgress := by
  intro f x y wrap str s hlen hfont hwrap hmisfit
  obtain ⟨c, hc, hwide⟩ := hmisfit
  have hfault : (dstrDrawn s.cfg f x y wrap str s.fb).noProgress = true :=
    dstrDrawn_noProgress_iff.mpr ⟨hwrap, c, hc, decide_eq_false (Nat.not_le.mpr hwide)⟩
  refine ⟨_, _, (dstrDrawn_count_toNat hlen).trans (placements_length_of_wrap hwrap), fun px py hx hy => ?_,
    exec_dstr_of_noProgress hlen hfont hfault⟩
  rw [cell_dstrDrawn hx hy, decide_eq_true hwrap]

/-- Settles O39. -/
theorem stringDrawIsTheSpecLoop : Obligations.StringDrawIsTheSpecLoop :=
  fun font wrap x y _ g _ hfuel => stringLoop_eq_drawString font wrap x List.drop_zero hfuel x y g

/-- Settles O40. -/
theorem dbmpOverwritesTheRectangle : Obligations.DbmpOverwritesTheRectangle := by
  refine fun w h x y inv data s => ⟨_, fun px py hx hy => ?_, rfl⟩
  rw [cell_blit _ _ _ _ _ _ _ hx hy, bitmapBit, lit_eq_decide, lit_eq_decide, Bool.bne_eq_xor]

/-- Settles O41: the draws OR the inked cells onto the surface, and outside it no cell is lit. -/
theorem glyphDrawsNeverErase : Obligations.GlyphDrawsNeverErase := by
  intro i s t hi h px py hlit
  by_cases hin : px < 28 ∧ py < 14
  case neg => rw [cell_out _ hin] at hlit; cases hlit
  obtain ⟨hx, hy⟩ := hin
  cases effect_of_exec h
  case refused => exact hlit
  case dchr f ch x y => exact (cell_drawColumns _ _ _ _ _ hx hy).trans (by rw [hlit, Bool.true_or])
  case dstr | dstrFault => exact (cell_dstrDrawn hx hy).trans (by rw [hlit, Bool.true_or])
  all_goals simp [Instr.mnemonic] at hi

/-- Settles O42: both runs read the same configuration, and each operation's update of the surface is
idempotent. -/
theorem drawingIsIdempotent : Obligations.DrawingIsIdempotent := by
  intro i s t u hi ht hu
  obtain ⟨hcfg, -⟩ := exec_frame ht
  rw [fb_of_exec hi hu, hcfg, fb_of_exec hi ht, surfaceAfter_idempotent]

end Sys2Proof.Machine
end

section
/-! PROOF. What the operations write and answer (20_memory.md R51, 30_encoding.md R83, 60_exceptions.md R211,
R212), and what a step leaves of the configuration, the histories and FAULTED (10_state.md R29 to R31). -/

namespace Sys2Proof.Machine

open Sys2Proof

/-- Settles O20. -/
theorem onlyEncodersWriteFrameRegisters : Obligations.OnlyEncodersWriteFrameRegisters :=
  ⟨fun _ _ _ h henc hencf => (effect_of_exec h).frames henc hencf,
    fun s => ⟨tickAgent_txf0 s, tickAgent_txf1 s, tickAgent_frValid s⟩⟩

/-- Settles O21. -/
theorem eachSpaceHasItsWriters : Obligations.EachSpaceHasItsWriters := by
  intro i s t h
  have heff := effect_of_exec h
  exact ⟨heff.txLog, heff.evLog, heff.fb, tickAgent_txLog s⟩

/-- Settles O24. -/
theorem everyOperationAnswersOnceByTheTable : Obligations.EveryOperationAnswersOnceByTheTable := by
  intro i s
  obtain ⟨t, ht, heff⟩ := exec_eq_next_effect i s
  obtain ⟨st, rs, hresp, hmem⟩ := heff.answer
  exact ⟨t, st, rs, ht, hresp, hmem⟩

/-- A response has one status. -/
theorem status_unique {log rs rs' : List Byte} {st st' : Status}
    (h : log ++ statusCode st :: rs = log ++ statusCode st' :: rs') : st = st' := by
  rw [List.append_cancel_left_eq, List.cons.injEq] at h
  exact statusCode_injective h.1

/-- Settles O25: the status answered tells a refusal, which only answers, and SEND's two short writes from
the operations' work. -/
theorem errorsChangeNothing : Obligations.ErrorsChangeNothing := by
  intro i s t st rs h hresp hok hnp
  cases effect_of_exec h
  case refused st' hne _ =>
    obtain rfl : st' = st := status_unique (rs := []) hresp
    exact ⟨fun _ => rfl, fun hio => absurd (by simp [hio]) hne⟩
  case dstrFault => exact absurd (status_unique (st := .noProgress) hresp).symm hnp
  case sendShortTop _ htop =>
    exact ⟨absurd (status_unique (st := .ioError) hresp).symm, fun _ => .inl ⟨htop, rfl⟩⟩
  case sendShortBottom _ htop hbottom =>
    exact ⟨absurd (status_unique (st := .ioError) hresp).symm, fun _ => .inr ⟨htop, hbottom, rfl⟩⟩
  all_goals exact absurd (status_unique (st := .ok) hresp).symm hok

/-- Settles O18. -/
theorem configurationNeverChanges : Obligations.ConfigurationNeverChanges := by
  intro s t h
  cases stepEffect_of_step h with
  | reset _ => rw [resetEvent_cfg, beforeReset_cfg]
  | tick _ _ => rw [tickAgent_cfg, turnTaken_cfg]
  | command _ _ _ heff => exact heff.cfg.trans (turnTaken_cfg s)
  | reserved _ _ _ => exact turnTaken_cfg s
  | wait _ _ _ => exact turnTaken_cfg s

/-- Settles O19: outside reset every kind of step writes a history at its end, if at all. -/
theorem logsOnlyGrow : Obligations.LogsOnlyGrow := by
  intro s t hr h
  have htx : s.txLog = (turnTaken s).txLog := (turnTaken_txLog s).symm
  have hev : s.evLog = (turnTaken s).evLog := (turnTaken_evLog s).symm
  have hresp : s.respLog = (turnTaken s).respLog := (turnTaken_respLog s).symm
  rw [htx, hev, hresp]
  cases stepEffect_of_step h with
  | reset hn => exact absurd hr hn
  | tick _ _ =>
    rw [tickAgent_txLog, tickAgent_respLog]
    exact ⟨List.prefix_rfl, tickAgent_evLog_prefix _, List.prefix_rfl⟩
  | command _ _ _ heff =>
    obtain ⟨st, rs, hresp, -⟩ := heff.answer
    exact ⟨heff.txLog_prefix, heff.evLog_prefix, hresp ▸ List.prefix_append _ _⟩
  | reserved _ _ _ => exact ⟨List.prefix_rfl, List.prefix_rfl, List.prefix_append _ _⟩
  | wait _ _ _ => exact ⟨List.prefix_rfl, List.prefix_rfl, List.prefix_rfl⟩

/-- Settles O12: of all steps only a DSTR whose draw ends in the fault sets FAULTED. -/
theorem onlyWrappingDstrSetsFaulted : Obligations.OnlyWrappingDstrSetsFaulted := by
  intro s t hf h hft
  have hturn : (turnTaken s).faulted = false := (turnTaken_faulted s).trans hf
  cases stepEffect_of_step h with
  | reset _ => cases hft
  | tick _ _ => rw [tickAgent_faulted, hturn] at hft; cases hft
  | @command i rest _ _ _ hd heff =>
    obtain hkeep | ⟨f, x, y, wrap, str, rfl, hlen, hfont, hfault⟩ := heff.faulted
    · rw [hkeep] at hft
      exact absurd (hturn.symm.trans hft) Bool.false_ne_true
    · obtain ⟨hwrap, c, hc, hmisfit⟩ := dstrDrawn_noProgress_iff.mp hfault
      rw [turnTaken_cfg] at hlen hfont hmisfit
      exact ⟨f, x, y, wrap, str, rest, hd, hwrap, hlen, hfont, c, hc,
        Nat.not_le.mp (of_decide_eq_false hmisfit)⟩
  | reserved _ _ _ => exact absurd (hturn.symm.trans hft) Bool.false_ne_true
  | wait _ _ _ => exact absurd (hturn.symm.trans hft) Bool.false_ne_true

/-- Settles O17. -/
theorem resetLeavesFlagsClearAndLogsEmpty : Obligations.ResetLeavesFlagsClearAndLogsEmpty :=
  ⟨rfl, rfl, rfl, rfl, rfl, rfl⟩

/-- Settles O23. -/
theorem sessionEndsOnlyByClearOrReset : Obligations.SessionEndsOnlyByClearOrReset :=
  fun _ _ _ hses hr h => session_of_step_running hses hr h

end Sys2Proof.Machine
end

section
/-! PROOF. The step (20_memory.md R62, 30_encoding.md R80, R91, R93, 42_scroll.md R165, 70_reset_and_hazards.md
R250): an equation per kind of step, when it stops, and commands in arrival order. -/

namespace Sys2Proof.Machine

open Sys2Proof

section StepEquations

variable {s : State} {i : Instr} {op : Byte} {rest : List Byte}

theorem step_of_faulted (hr : s.resetInput = .released) (hf : s.faulted = true) :
    step s = .fault .noProgress := by
  simp [step, pick, hr, hf]

theorem step_of_tick (hr : s.resetInput = .released) (hf : s.faulted = false)
    (ht : tickIsNext s = true) : step s = .next (tickAgent (turnTaken s)) := by
  simp [step, pick, hr, hf, ht]

theorem step_of_command (hr : s.resetInput = .released) (hf : s.faulted = false)
    (ht : tickIsNext s = false) (hd : decode s.rx = .command i rest) :
    step s = exec i { turnTaken s with rx := rest } := by
  simp [step, pick, commandAgent, hr, hf, ht, hd]

theorem step_of_reserved (hr : s.resetInput = .released) (hf : s.faulted = false)
    (ht : tickIsNext s = false) (hd : decode s.rx = .reserved op rest) :
    step s = .next (respond { turnTaken s with rx := rest } .badOpcode []) := by
  simp [step, pick, commandAgent, hr, hf, ht, hd]

theorem step_of_incomplete (hr : s.resetInput = .released) (hf : s.faulted = false)
    (ht : tickIsNext s = false) (hd : decode s.rx = .incomplete) : step s = .next (turnTaken s) := by
  simp [step, pick, commandAgent, hr, hf, ht, hd]

end StepEquations

/-- Settles O5: the decoder reads a reserved opcode alone, and the step answers it. -/
theorem reservedOpcodesAnswerBadOpcode : Obligations.ReservedOpcodesAnswerBadOpcode := by
  have hdecode : ∀ (op : Byte) (rest : List Byte),
      decode (op :: rest) = .reserved op rest ↔ (op.toNat = 0 ∨ 0x0D ≤ op.toNat) := by
    intro op rest
    rw [decode_reserved_iff, mnemonicOf_eq_none_iff]
    simp only [and_true]
  refine ⟨hdecode, fun s op rest hr hf ht hrx hop => ?_⟩
  rw [step_of_reserved hr hf ht (by rw [hrx]; exact (hdecode op rest).mpr hop), respond, turnTaken_respLog]
  rfl

/-- Settles O6. -/
theorem stepRunsTheDecodedCommand : Obligations.StepRunsTheDecodedCommand :=
  fun _ _ _ hr hf ht hd => step_of_command hr hf ht hd

section PlaceCommand

variable (s : State) (bytes : List Byte)

@[simp] theorem placeCommand_rx : (placeCommand s bytes).rx = bytes ++ s.rx := by
  unfold placeCommand; split <;> rfl

@[simp] theorem placeCommand_faulted : (placeCommand s bytes).faulted = s.faulted := by
  unfold placeCommand; split <;> rfl

@[simp] theorem placeCommand_resetInput : (placeCommand s bytes).resetInput = s.resetInput := by
  unfold placeCommand; split <;> rfl

/-- A placed command comes next: an idle block has no tick, and a running session's turn is the command
agent's (log 12). -/
theorem tickIsNext_placeCommand : tickIsNext (placeCommand s bytes) = false := by
  cases hses : s.session <;> simp [placeCommand, tickIsNext, hses]

/-- Once its turn and its bytes are used up, a placed command has left no trace. -/
theorem turnTaken_placeCommand : { turnTaken (placeCommand s bytes) with rx := s.rx } = s := by
  cases hses : s.session <;> simp [placeCommand, turnTaken, hses]
  all_goals cases s; simp_all

end PlaceCommand

/-- The bytes placed for a table word that decodes are that operation's command (log 12). -/
theorem decode_tableCommand {nbits w : Nat} {i : Instr} (h : decodeTableWord nbits w = some i)
    (rest : List Byte) : decode (tableCommand nbits w ++ rest) = .command i rest := by
  rw [tableCommand, h]
  rw [decodeTableWord] at h
  split at h
  next j _ hd =>
    cases h
    exact decode_encode_append (wellFormed_and_eq_of_decode hd).1 rest
  all_goals cases h

/-- Settles O7: the placed bytes decode to the operation and leave the bytes that were there. -/
theorem placedCommandRunsNext : Obligations.PlacedCommandRunsNext := by
  intro s nbits w i hr hf hd
  rw [State.withFetchWord, step_of_command (i := i) (rest := s.rx), turnTaken_placeCommand]
  · rw [placeCommand_resetInput, hr]
  · rw [placeCommand_faulted, hf]
  · exact tickIsNext_placeCommand _ _
  · rw [placeCommand_rx]
    exact decode_tableCommand hd s.rx

/-- Settles O9: TICK is the tick agent's transition with a response, and a session is active. -/
theorem tickAgentFiresTicksTransition : Obligations.TickAgentFiresTicksTransition := by
  intro s hr hf ht
  obtain ⟨ses, hses⟩ := session_of_tickIsNext ht
  refine ⟨_, step_of_tick hr hf ht, by simp, by simp, by simp, ?_⟩
  rw [exec_tick, scrollActive_of_session ((turnTaken_session s).trans hses), if_pos rfl, respond,
    tickAgent_respLog, turnTaken_respLog]
  rfl

/-- Settles O10: an idle block's TICK is refused, and SCRL alone starts a session. -/
theorem idleBlockEmitsNoUpdate : Obligations.IdleBlockEmitsNoUpdate := by
  intro s t hidle hr h
  have ht := tickIsNext_idle hidle
  refine ⟨ht, ?_⟩
  cases stepEffect_of_step h with
  | reset hn => exact absurd hr hn
  | tick _ hn => rw [ht] at hn; cases hn
  | reserved _ _ _ => rw [turnTaken_idle hidle]; exact ⟨rfl, .inl hidle⟩
  | wait _ _ _ => rw [turnTaken_idle hidle]; exact ⟨rfl, .inl hidle⟩
  | command _ _ hd heff =>
    rw [turnTaken_idle hidle] at heff
    cases heff
    case scrl f x y ivl cb str _ _ _ => exact ⟨rfl, .inr ⟨f, x, y, ivl, cb, str, _, hd⟩⟩
    case tick ses hses => exact absurd (hidle.symm.trans hses) (by simp)
    case clear => exact ⟨rfl, .inl rfl⟩
    all_goals exact ⟨rfl, .inl hidle⟩

/-- A step of a block that is not faulted, or whose reset is asserted, has a next state. -/
theorem step_next {s : State} (h : s.faulted = false ∨ s.resetInput ≠ .released) :
    ∃ t, step s = .next t := by
  obtain ⟨-, hs⟩ | ⟨hr, hf, -⟩ | ⟨-, -, -, hs⟩ | ⟨-, -, -, i, rest, -, hs⟩ |
    ⟨-, -, -, op, rest, -, hs⟩ | ⟨-, -, -, -, hs⟩ := step_cases s
  case inr.inl => exact absurd h (by simp [hr, hf])
  case inr.inr.inr.inl =>
    rw [hs]
    exact exec_next i _
  all_goals exact ⟨_, hs⟩

/-- Settles O11. -/
theorem blockStopsOnlyWhenFaulted : Obligations.BlockStopsOnlyWhenFaulted := by
  intro s
  by_cases hstop : s.faulted = true ∧ s.resetInput = .released
  · have hs := step_of_faulted hstop.2 hstop.1
    refine ⟨iff_of_true hs hstop, fun r hr => ?_, step_next⟩
    rw [hs] at hr
    cases hr
  · obtain ⟨t, hs⟩ := step_next (s := s) ((not_and_or.mp hstop).imp_left Bool.eq_false_of_not_eq_true)
    rw [hs]
    exact ⟨iff_of_false (by simp) hstop, by simp, fun _ => ⟨t, rfl⟩⟩

/-- Settles O13. -/
theorem unfinishedCommandWaits : Obligations.UnfinishedCommandWaits := by
  intro s hr hf ht hd
  have hs := step_of_incomplete hr hf ht hd
  exact ⟨hs, fun hidle => by rw [hs, turnTaken_idle hidle]⟩

/-- Settles O14. -/
theorem resetEventClearsTheBlock : Obligations.ResetEventClearsTheBlock :=
  fun s hr => ⟨_, step_of_reset hr, rfl, rfl, rfl, rfl, rfl, rfl, beforeReset_cfg s, rfl⟩

/-- Settles O58: the reset event keeps the unread bytes it finds, from which the abandoned operation's
command, and nothing else, has been read. -/
theorem resetAbandonsTheOperation : Obligations.ResetAbandonsTheOperation := by
  intro s hr
  refine ⟨_, step_of_reset hr, rfl, fun hin hf ht => ?_, fun hkept => ?_⟩
  · rw [resetEvent_rx, beforeReset_inOperation hin, operationStarted_rx hf ht, bytesAfterCommand]
    exact ⟨fun _ _ hd => by rw [hd], fun _ _ hd => by rw [hd], fun hd => by rw [hd]⟩
  · rw [resetEvent_rx]
    cases hin : s.resetInput with
    | released => exact absurd hin hr
    | atBoundary => rw [beforeReset_atBoundary hin]
    | inOperation =>
      rw [beforeReset_inOperation hin]
      obtain hb | hf | ht := hkept
      · rw [hin] at hb; cases hb
      · rw [operationStarted, if_pos hf]
      · exact operationStarted_rx_tick ht

section Unread

/-- `s` with other bytes on the command port and another session. -/
def withUnread (rest : List Byte) (ses : Option Session) (s : State) : State :=
  { s with rx := rest, session := ses }

variable (rest : List Byte) (ses : Option Session) (s : State)

@[simp] theorem withUnread_cfg : (withUnread rest ses s).cfg = s.cfg := rfl
@[simp] theorem withUnread_fb : (withUnread rest ses s).fb = s.fb := rfl
@[simp] theorem withUnread_frValid : (withUnread rest ses s).frValid = s.frValid := rfl

theorem sinkWrite_withUnread (bytes : List Byte) :
    sinkWrite (withUnread rest ses s) bytes = withUnread rest ses (sinkWrite s bytes) := by
  cases s with
  | mk _ _ _ _ _ _ _ _ _ _ _ answers _ _ _ => cases answers <;> rfl

theorem sendBottom_withUnread :
    sendBottom (withUnread rest ses s) = withUnread rest ses (sendBottom s) := by
  unfold sendBottom
  rw [sinkWrite_withUnread, apply_ite (withUnread rest ses)]
  rfl

theorem sendFrames_withUnread :
    sendFrames (withUnread rest ses s) = withUnread rest ses (sendFrames s) := by
  unfold sendFrames
  rw [sinkWrite_withUnread, sendBottom_withUnread, apply_ite (withUnread rest ses)]
  rfl

theorem finishString_withUnread (d : StringDrawn) :
    finishString (withUnread rest ses s) d = withUnread rest ses (finishString s d) := by
  unfold finishString
  rw [apply_ite (withUnread rest ses)]
  rfl

variable {s} {i : Instr} {t : State}

/-- The operations that do not work on the session read neither it nor the command port. -/
theorem exec_withUnread (hi : i.mnemonic ∉ [.clear, .scrl, .tick]) (h : exec i s = .next t) :
    exec i (withUnread rest ses s) = .next (withUnread rest ses t) := by
  cases i <;> simp only [exec, execInit, execSetpx, execMeas, execDchr, execDstr, execDbmp, execEnc,
    execEncf, execSend, Host.Outcome.next.injEq, withUnread_cfg, withUnread_fb, withUnread_frValid,
    sendFrames_withUnread, finishString_withUnread] at h ⊢
  case clear | scrl | tick => simp [Instr.mnemonic] at hi
  all_goals subst h
  case setpx | meas | send => rw [apply_ite (withUnread rest ses)]; rfl
  case dchr f ch x y =>
    rw [apply_ite (withUnread rest ses)]
    cases drawGlyph (fontAt s.cfg f) ch x.toNat y.toNat s.fb <;> rfl
  case dstr => rw [apply_ite (withUnread rest ses), apply_ite (withUnread rest ses)]; rfl
  all_goals rfl

/-- No operation reads the command port. -/
theorem exec_withRx (h : exec i s = .next t) :
    exec i { s with rx := rest } = .next { t with rx := rest } := by
  by_cases hi : i.mnemonic ∈ [.clear, .scrl, .tick]
  case neg =>
    rw [← exec_keeps_session hi h]
    exact exec_withUnread rest t.session hi h
  cases i <;> simp only [exec, execClear, execScrl, execTick, Host.Outcome.next.injEq] at h ⊢
  case clear | scrl | tick =>
    subst h
    (repeat' split) <;> rfl
  all_goals simp [Instr.mnemonic] at hi

end Unread

theorem core_run_succ {s t : State} (h : step s = .next t) (k : Nat) :
    core.run (k + 1) s = core.run k t := by
  have hcore : core.step s = .next t := h
  simp only [Host.Core.run, hcore]

/-- Settles O8, by induction on the operations: each step runs the first command in a block that stays idle
and unfaulted, and no operation reads the bytes of the later ones. -/
theorem commandsRunInArrivalOrder : Obligations.CommandsRunInArrivalOrder := by
  intro is s hr hf hidle hwf hkinds hrx
  induction is generalizing s with
  | nil =>
    rw [List.flatMap_nil] at hrx
    rw [← hrx]
    rfl
  | cons i is ih =>
    obtain ⟨hwfi, hwf⟩ := List.forall_mem_cons.mp hwf
    obtain ⟨⟨hscrl, hdstr⟩, hkinds⟩ := List.forall_mem_cons.mp hkinds
    obtain ⟨t, ht, heff⟩ := exec_eq_next_effect i { s with rx := is.flatMap encode }
    have hstep : step s = .next t := by
      rw [← ht, step_of_command hr hf (tickIsNext_idle hidle), turnTaken_idle hidle]
      rw [hrx, List.flatMap_cons, decode_encode_append hwfi]
    have hfirst : exec i { s with rx := [] } = .next { t with rx := [] } :=
      exec_withRx (s := { s with rx := is.flatMap encode }) [] ht
    obtain ⟨-, hrxt, -, hrt⟩ := exec_frame ht
    have hft : t.faulted = false := by
      obtain hkeep | ⟨f, x, y, wrap, str, hi, -, -, hfault⟩ := heff.faulted
      · exact hkeep.trans hf
      · exact absurd (hdstr f x y wrap str hi) (dstrDrawn_noProgress_iff.mp hfault).1
    rw [List.length_cons, core_run_succ hstep, execAll, hfirst]
    exact ih t (hrt.trans hr) hft (heff.session_of_idle hidle hscrl) hwf hkinds hrxt

end Sys2Proof.Machine
end

section
/-! PROOF. Scrolling: SCRL's outcomes, the picture a tick shows, the rotation of the text, the life of a
session, and the interval no step reads (42_scroll.md R163 to R167). -/

namespace Sys2Proof.Machine

open Sys2Proof

/-- Settles O43. -/
theorem scrlCreatesTheSession : Obligations.ScrlCreatesTheSession := by
  refine fun f x y ivl cb str s => ⟨exec_scrl_of_long, exec_scrl_of_badFont, fun hlen hfont hrun => ?_,
    exec_scrl_of_idle⟩
  obtain ⟨ses, hses⟩ := Option.ne_none_iff_exists'.mp hrun
  exact exec_scrl_of_running hlen hfont hses

/-- A session's picture holds the placed characters of its suffix alone (R164). -/
theorem cell_scrollPicture (cfg : Config) (ses : Session) {px py : Nat} (hx : px < 28) (hy : py < 14) :
    cell (scrollPicture cfg ses) px py = inkedBy (fontAt cfg ses.sfont)
      (placements (fontAt cfg ses.sfont) false ses.sx.toNat (ses.stext.drop ses.sidx) ses.sx.toNat
        ses.sy.toNat) px py := by
  rw [scrollPicture, cell_drawString _ _ _ _ _ _ _ _ hx hy, cell_fbZero, Bool.false_or]

/-- Settles O44: the index and the picture are those of the advanced session. -/
theorem tickShowsTheSuffix : Obligations.TickShowsTheSuffix := by
  refine fun s => ⟨exec_tick_of_idle, fun ses hses => ?_⟩
  exact ⟨scrollPicture s.cfg (advanceSession ses), advanceIndex ses, rfl,
    fun px py hx hy => cell_scrollPicture s.cfg (advanceSession ses) hx hy, exec_tick_of_session hses⟩

section Rotation

/-- The session `k` ticks after its start: the read index runs through 0 to SLEN and begins again (R167). -/
def rotated (ses : Session) (k : Nat) : Session := { ses with sidx := k % (ses.stext.length + 1) }

/-- The circular advance of an index within 0 to SLEN is addition modulo SLEN + 1 (R164 point b). -/
theorem advanceIndex_eq_mod {ses : Session} (h : ses.sidx ≤ ses.stext.length) :
    advanceIndex ses = (ses.sidx + 1) % (ses.stext.length + 1) := by
  rw [advanceIndex, Session.slen]
  split
  next hwrap =>
    have hend : ses.sidx = ses.stext.length := by omega
    rw [hend, Nat.mod_self]
  next => exact (Nat.mod_eq_of_lt (by omega)).symm

theorem advanceSession_rotated (ses : Session) (k : Nat) :
    advanceSession (rotated ses k) = rotated ses (k + 1) := by
  have hin : (rotated ses k).sidx ≤ ses.stext.length := Nat.le_of_lt_succ (Nat.mod_lt k (Nat.succ_pos _))
  rw [advanceSession, advanceIndex_eq_mod hin, rotated, rotated, Nat.mod_add_mod]

/-- What `k` ticks of the session `ses`, at its start in state `s`, leave. -/
structure AfterTicks (s : State) (ses : Session) (k : Nat) (t : State) : Prop where
  session_eq : t.session = some (rotated ses k)
  fb_eq : 1 ≤ k → t.fb = scrollPicture s.cfg (rotated ses k)
  tags_eq : t.evLog.map Update.tag = s.evLog.map Update.tag ++ List.replicate k ses.scb
  cfg_eq : t.cfg = s.cfg
  txLog_eq : t.txLog = s.txLog

variable {s t : State} {ses : Session} {k : Nat}

theorem afterTicks_zero (hses : s.session = some ses) (hstart : ses.sidx = 0) :
    AfterTicks s ses 0 s where
  session_eq := by rw [hses, rotated, Nat.zero_mod, ← hstart]
  fb_eq := by intro h; omega
  tags_eq := (List.append_nil _).symm
  cfg_eq := rfl
  txLog_eq := rfl

theorem afterTicks_succ (h : AfterTicks s ses k t) :
    AfterTicks s ses (k + 1) (respond (tickSession t (rotated ses k)) .ok []) := by
  rw [tickSession_eq, advanceSession_rotated, h.cfg_eq]
  exact {
    session_eq := rfl
    fb_eq := fun _ => rfl
    tags_eq := by
      rw [List.replicate_succ', ← List.append_assoc, ← h.tags_eq]
      exact List.map_append
    cfg_eq := rfl
    txLog_eq := h.txLog_eq }

/-- A run of operations after a run that answered a next state. -/
theorem execAll_append {is js : List Instr} (h : execAll is s = .next t) :
    execAll (is ++ js) s = execAll js t := by
  induction is generalizing s with
  | nil => cases h; rfl
  | cons i is ih =>
    obtain ⟨u, hu⟩ := exec_next i s
    rw [execAll, hu] at h
    rw [List.cons_append, execAll, hu]
    exact ih h

theorem execAll_ticks (hses : s.session = some ses) (hstart : ses.sidx = 0) (k : Nat) :
    ∃ t, execAll (List.replicate k .tick) s = .next t ∧ AfterTicks s ses k t := by
  induction k with
  | zero => exact ⟨s, rfl, afterTicks_zero hses hstart⟩
  | succ k ih =>
    obtain ⟨t, ht, hafter⟩ := ih
    refine ⟨_, ?_, afterTicks_succ hafter⟩
    rw [List.replicate_succ', execAll_append ht, execAll, exec_tick_of_session hafter.session_eq]
    rfl

/-- An accepted SCRL and any number of ticks leave its session running (R167). -/
theorem execAll_scrl_ticks {f x y cb : Byte} {ivl : Word16} {str : List Byte}
    (hidle : s.session = none) (hlen : str.length ≤ s.cfg.maxTextLen) (hfont : f.toNat < nfonts s.cfg)
    (k : Nat) :
    ∃ t ses, execAll (.scrl f x y ivl cb str :: List.replicate k .tick) s = .next t ∧
      t.session = some ses ∧ t.cfg = s.cfg ∧ t.txLog = s.txLog := by
  obtain ⟨t, ht, hafter⟩ := execAll_ticks (ses := newSession f x y ivl cb str)
    (s := respond { s with session := some (newSession f x y ivl cb str) } .ok []) rfl rfl k
  refine ⟨t, _, ?_, hafter.session_eq, hafter.cfg_eq, hafter.txLog_eq⟩
  rw [execAll, exec_scrl_of_idle hlen hfont hidle]
  exact ht

end Rotation

/-- Settles O45, by induction on the number of ticks (`execAll_ticks`). -/
theorem ticksRotateTheText : Obligations.TicksRotateTheText := by
  intro s ses k hses hstart
  obtain ⟨t, ht, hafter⟩ := execAll_ticks hses hstart k
  refine ⟨t, ht, hafter.session_eq, fun hk px py hx hy => ?_, ?_⟩
  · rw [hafter.fb_eq hk]
    exact cell_scrollPicture s.cfg (rotated ses k) hx hy
  · rw [List.map_drop, hafter.tags_eq, List.drop_left' (List.length_map _)]

/-- Settles O46: CLEAR ends the session the ticks left running, in a block of the same configuration. -/
theorem scrollLifeCycle : Obligations.ScrollLifeCycle := by
  intro s f x y ivl cb str k hidle hlen hfont
  obtain ⟨t, ses, ht, -, hcfg, htx⟩ := execAll_scrl_ticks (x := x) (y := y) (ivl := ivl) (cb := cb)
    hidle hlen hfont k
  rw [← hcfg] at hlen hfont
  refine ⟨respond { t with session := none, fb := fbZero } .ok [], ?_, allCells_fbZero, rfl, htx, ?_⟩
  · rw [← List.cons_append, execAll_append ht, execAll, exec_clear]
    rfl
  · exact ⟨_, exec_scrl_of_idle hlen hfont rfl, scrollActive_of_session rfl, rfl⟩

/-- Settles O47: the session of the first SCRL is still running. -/
theorem secondScrlIsRefused : Obligations.SecondScrlIsRefused := by
  intro s f x y ivl cb str k f' x' y' ivl' cb' str' hidle hlen hfont hlen' hfont'
  obtain ⟨t, ses, ht, hses, hcfg, -⟩ := execAll_scrl_ticks (x := x) (y := y) (ivl := ivl) (cb := cb)
    hidle hlen hfont k
  rw [← hcfg] at hlen' hfont'
  exact ⟨t, ht, scrollActive_of_session hses, exec_scrl_of_running hlen' hfont' hses⟩

section Interval

variable (v : Word16) {s t : State} {i : Instr}

theorem withInterval_idle (h : s.session = none) : withInterval v s = s := by
  rw [withInterval, h, Option.map_none, ← h]

theorem withInterval_withInterval (s : State) :
    withInterval v (withInterval v s) = withInterval v s := by
  simp only [withInterval, Option.map_map]
  rfl

theorem tickIsNext_withInterval (s : State) : tickIsNext (withInterval v s) = tickIsNext s := by
  cases hses : s.session <;> simp [tickIsNext, withInterval, hses]

theorem turnTaken_withInterval (s : State) :
    turnTaken (withInterval v s) = withInterval v (turnTaken s) := by
  cases s with
  | mk _ _ _ _ _ session _ _ _ _ _ _ turns _ _ => cases session <;> cases turns <;> rfl

theorem tickAgent_withInterval (s : State) :
    tickAgent (withInterval v s) = withInterval v (tickAgent s) := by
  cases s with
  | mk _ _ _ _ _ session _ _ _ _ _ _ _ _ _ => cases session <;> rfl

theorem operationStarted_withInterval (s : State) :
    operationStarted (withInterval v s) = withInterval v (operationStarted s) := by
  unfold operationStarted
  rw [tickIsNext_withInterval, turnTaken_withInterval, apply_ite (withInterval v),
    apply_ite (withInterval v)]
  rfl

theorem beforeReset_withInterval (s : State) :
    beforeReset (withInterval v s) = withInterval v (beforeReset s) := by
  cases hr : s.resetInput with
  | inOperation =>
    rw [beforeReset_inOperation hr, beforeReset_inOperation (s := withInterval v s) hr,
      operationStarted_withInterval]
  | _ => simp [beforeReset, withInterval, hr]

/-- Why SCRL is refused while a session runs, in the order of R218. -/
def scrlRefusal (cfg : Config) (f : Byte) (str : List Byte) : Status :=
  if textTooLong cfg str then .badOperand else if badFont cfg f then .badFont else .alreadyRunning

theorem exec_scrl_of_session {f x y cb : Byte} {ivl : Word16} {str : List Byte} {ses : Session}
    (hses : s.session = some ses) :
    exec (.scrl f x y ivl cb str) s = .next (respond s (scrlRefusal s.cfg f str) []) := by
  cases hlong : textTooLong s.cfg str <;> cases hbad : badFont s.cfg f <;>
    simp [exec, execScrl, scrlRefusal, hses, hlong, hbad]

/-- While a session runs, every operation does the same whatever the interval. -/
theorem exec_withInterval {ses : Session} (hses : s.session = some ses) (h : exec i s = .next t) :
    exec i (withInterval v s) = .next (withInterval v t) := by
  have hsesv : (withInterval v s).session = some { ses with sivl := v } := by
    rw [withInterval, hses, Option.map_some]
  by_cases hi : i.mnemonic ∈ [.clear, .scrl, .tick]
  case neg =>
    obtain ⟨-, hrx, -⟩ := exec_frame h
    rw [withInterval, withInterval, exec_keeps_session hi h, ← hrx]
    exact exec_withUnread t.rx _ hi h
  cases i
  case clear => cases h; rfl
  case scrl =>
    rw [exec_scrl_of_session hses] at h
    rw [exec_scrl_of_session hsesv]
    cases h
    rfl
  case tick =>
    rw [exec_tick_of_session hses] at h
    rw [exec_tick_of_session hsesv]
    cases h
    rfl
  all_goals simp [Instr.mnemonic] at hi

/-- While a session runs, every step does the same whatever the interval. -/
theorem step_withInterval {ses : Session} (hses : s.session = some ses) (h : step s = .next t) :
    step (withInterval v s) = .next (withInterval v t) := by
  obtain ⟨hr, hs⟩ | ⟨-, -, hs⟩ | ⟨hr, hf, ht, hs⟩ | ⟨hr, hf, ht, i, rest, hd, hs⟩ |
    ⟨hr, hf, ht, op, rest, hd, hs⟩ | ⟨hr, hf, ht, hd, hs⟩ := step_cases s <;> rw [hs] at h
  case inr.inr.inr.inl =>
    rw [step_of_command (s := withInterval v s) hr hf ((tickIsNext_withInterval v s).trans ht) hd,
      turnTaken_withInterval]
    exact exec_withInterval v (s := { turnTaken s with rx := rest }) ((turnTaken_session s).trans hses) h
  all_goals cases h
  · rw [step_of_reset (s := withInterval v s) hr, beforeReset_withInterval]
    rfl
  · rw [step_of_tick (s := withInterval v s) hr hf ((tickIsNext_withInterval v s).trans ht),
      turnTaken_withInterval, tickAgent_withInterval]
  · rw [step_of_reserved (s := withInterval v s) hr hf ((tickIsNext_withInterval v s).trans ht) hd,
      turnTaken_withInterval]
    rfl
  · rw [step_of_incomplete (s := withInterval v s) hr hf ((tickIsNext_withInterval v s).trans ht) hd,
      turnTaken_withInterval]

end Interval

/-- Settles O48: an idle block has no interval, and a running session's is carried along. -/
theorem intervalIsNeverRead : Obligations.IntervalIsNeverRead := by
  intro s t v h
  cases hses : s.session with
  | none =>
    rw [withInterval_idle v hses]
    exact ⟨t, h, rfl⟩
  | some ses => exact ⟨_, step_withInterval v hses h, withInterval_withInterval v t⟩

end Sys2Proof.Machine
end

section
/-! PROOF. ENCF, the encoder's injectivity, and SEND (43_frame_encoder.md R181, R184, 44_transport.md R202). -/

namespace Sys2Proof.Machine

open Sys2Proof

/-- Settles O50: the frames are those of the grid the buffer means. -/
theorem encfEncodesTheBuffer : Obligations.EncfEncodesTheBuffer := by
  refine fun d s _ => ⟨encodeTop (flatGrid d), encodeBottom (flatGrid d), encodeTop_isDeviceFrame _,
    encodeBottom_isDeviceFrame _, fun c r hc hr => ⟨?_, ?_⟩, exec_encf s d⟩
  · rw [getLsbD_encodeTop_column _ hc hr, cell_flatGrid d hc (by omega), lit_eq_decide]
  · rw [getLsbD_encodeBottom_column _ hc hr, cell_flatGrid d hc (by omega), lit_eq_decide]

/-- Settles O53: every cell is a bit of one of the two frames. -/
theorem encodeIsInjective : Obligations.EncodeIsInjective := by
  refine fun g h htop hbottom => grid_ext fun x y hx hy => ?_
  by_cases hhalf : y < 7
  · rw [← getLsbD_encodeTop_column g hx hhalf, ← getLsbD_encodeTop_column h hx hhalf]
    simp only [htop]
  · obtain ⟨r, rfl⟩ := Nat.exists_eq_add_of_le (Nat.not_lt.mp hhalf)
    rw [← getLsbD_encodeBottom_column g hx (r := r) (by omega),
      ← getLsbD_encodeBottom_column h hx (r := r) (by omega)]
    simp only [hbottom]

/-- Settles O54. -/
theorem sendWithoutFrameAnswersNoFrame : Obligations.SendWithoutFrameAnswersNoFrame :=
  fun _ h => exec_send_of_noFrame h

/-- Settles O55. -/
theorem sendTransmitsTopThenBottom : Obligations.SendTransmitsTopThenBottom := by
  intro s hfr htop hbottom
  rw [exec_send_of_frames hfr]
  obtain ⟨hshort, -⟩ | ⟨-, hshort, -⟩ | ⟨-, -, h⟩ := sendFrames_cases s
  · exact absurd htop hshort.ne
  · exact absurd hbottom hshort.ne
  · rw [h]

/-- Settles O56. -/
theorem sendReportsTheShortFrame : Obligations.SendReportsTheShortFrame := by
  intro s hfr
  rw [exec_send_of_frames hfr]
  obtain ⟨hshort, h⟩ | ⟨htop, hshort, h⟩ | ⟨htop, hbottom, -⟩ := sendFrames_cases s
  · exact ⟨fun _ => by rw [h], fun htop => absurd htop hshort.ne⟩
  · exact ⟨fun hlt => absurd htop hlt.ne, fun _ _ => by rw [h]⟩
  · exact ⟨fun hlt => absurd htop hlt.ne, fun _ hlt => absurd hbottom hlt.ne⟩

end Sys2Proof.Machine
end
